-- ==== Sys2Proof/Word.lean ====
section
/-! DEFINITION. The word types of the engine. Every operand, result and key half is exactly 32 bits and unsigned
(00_scope.md R8); an opcode is 3 bits and a command 67 bits (30_encoding.md R60). Bit `i` has weight `2^i` (R7), which
is how `BitVec` numbers its bits. -/
namespace Sys2Proof

/-- `u32` of R8: an operand, a result, a key half, a working value. -/
abbrev Word := BitVec 32

/-- `u64` of R8: the key seen as one value (R21). -/
abbrev KeyWord := BitVec 64

/-- The opcode field `op`, the wires `cmd_op` (R41, R60). -/
abbrev Opcode := BitVec 3

/-- A command word `W`, bits 66 down to 0 (R60). -/
abbrev CommandWord := BitVec 67

end Sys2Proof
end

