-- ==== Sys2Proof/Syntax.lean ====
section
/-! DEFINITION. The commands as syntax: one constructor per row of spec/opcode_table.json, with the operands the decoder
gives it (30_encoding.md R66), and the pseudo-commands of R71. -/
namespace Sys2Proof

/-- The six commands (30_encoding.md R62). An operand that a command ignores is no part of it: "two command words that
differ only in ignored bits are the same command" (R64). NORMLEARN keeps its whole serial, as R66 and R67 do; that its
top four bits have no effect is a fact about its meaning (42_key_derivation.md R114). -/
inductive Instr where
  /-- SETKEY `keyHigh`, `keyLow`. -/
  | setkey (hi lo : Word)
  /-- GETKEY `selectHigh`. -/
  | getkey (sel : Bool)
  /-- ENCRYPT `plaintext`. -/
  | encrypt (p : Word)
  /-- DECRYPT `ciphertext`. -/
  | decrypt (c : Word)
  /-- NORMLEARN `serial`. -/
  | normlearn (serial : Word)
  /-- REFLECTPACK `word`. -/
  | reflectpack (w : Word)
deriving DecidableEq, Repr

/-- The pseudo-commands of R71; they have no encoding of their own, only an expansion (Machine/Listing.lean). -/
inductive Pseudo where
  | getkeyh
  | getkeyl
  | setkey64 (k : KeyWord)
  | learn (k : KeyWord) (serial : Word)
deriving DecidableEq, Repr

end Sys2Proof
end

