-- ==== Sys2Proof/WellFormed.lean ====
section
/-! DEFINITION. What is well formed. A command as syntax always is: "there are no illegal encodings among `op` 0..5" and
"no operand value is illegal" (30_encoding.md R66, R69). The two checks that can fail are about the raw fields on the
command port: that the opcode is assigned (R68, 20_memory.md R50) and that the ignored bits are zero, which an assembler
owes and a host does not (R64, R67). -/
namespace Sys2Proof

/-- Every command is well formed, whatever its operands (R66, R69). One line per constructor, so that a new one
cannot slip past. -/
def Instr.wellFormed : Instr → Bool
  | .setkey _ _ => true
  | .getkey _ => true
  | .encrypt _ => true
  | .decrypt _ => true
  | .normlearn _ => true
  | .reflectpack _ => true

/-- The three fields of format `C` as the ports carry them (R60, R61). -/
structure RawCommand where
  op : Opcode
  a : Word
  b : Word
deriving DecidableEq, Repr

/-- The opcode spells a command: 0 to 5 (R62, R68). -/
def RawCommand.assigned (c : RawCommand) : Bool := decide (c.op.toNat ≤ 5)

/-- Every ignored bit is 0 (R67): `b` for all commands but SETKEY, `a[31:1]` for GETKEY. NORMLEARN's `a` is emitted
as given. -/
def RawCommand.canonical (c : RawCommand) : Bool :=
  (c.op = 0#3 || c.b = 0#32) && (c.op ≠ 1#3 || c.a >>> 1 = 0#32)

/-- What an assembler emits: an assigned opcode and zeros in the ignored bits (R67, R68). -/
def RawCommand.wellFormed (c : RawCommand) : Bool := c.assigned && c.canonical

end Sys2Proof
end

