-- ==== Sys2Proof/Decode.lean ====
section
/-! DEFINITION. The decoder, total on every 67-bit command word and rejecting by name (30_encoding.md R60, R62, R66, R68),
and after it the encoder, which gives the canonical word (R67). A command is one word on parallel ports and is never
serialised (R60), so there are no bytes and no byte order to decode (20_memory.md R42). -/
namespace Sys2Proof

/-- Why a word is no command. -/
inductive DecodeError where
  /-- `op` 6 or 7, which spells no command (R68). -/
  | reserved (op : Opcode)
deriving DecidableEq, Repr

def opSetkey : Opcode := 0#3
def opGetkey : Opcode := 1#3
def opEncrypt : Opcode := 2#3
def opDecrypt : Opcode := 3#3
def opNormlearn : Opcode := 4#3
def opReflectpack : Opcode := 5#3

/-- `op = W[66:64]` (R60). -/
def opOf (w : CommandWord) : Opcode := w.extractLsb' 64 3

/-- `a = W[63:32]` (R60). -/
def aOf (w : CommandWord) : Word := w.extractLsb' 32 32

/-- `b = W[31:0]` (R60). -/
def bOf (w : CommandWord) : Word := w.extractLsb' 0 32

/-- The three fields of a word (R61). -/
def fieldsOf (w : CommandWord) : RawCommand := ⟨opOf w, aOf w, bOf w⟩

/-- `W = {op, a, b}` (R60). -/
def wordOf (c : RawCommand) : CommandWord := c.op ++ c.a ++ c.b

/-- The opcode alone selects the command (R62); the operands are taken from the fields as R63 and R65 say. -/
def decodeFields (c : RawCommand) : Except DecodeError Instr :=
  if c.op = opSetkey then .ok (.setkey c.a c.b)
  else if c.op = opGetkey then .ok (.getkey (c.a.getLsbD 0))
  else if c.op = opEncrypt then .ok (.encrypt c.a)
  else if c.op = opDecrypt then .ok (.decrypt c.a)
  else if c.op = opNormlearn then .ok (.normlearn c.a)
  else if c.op = opReflectpack then .ok (.reflectpack c.a)
  else .error (.reserved c.op)

/-- The decoder, total on all `2^67` words (R66). -/
def decode (w : CommandWord) : Except DecodeError Instr := decodeFields (fieldsOf w)

/-- The fields of the canonical word of a command (R63, R67). -/
def canonicalFields : Instr → RawCommand
  | .setkey hi lo => ⟨opSetkey, hi, lo⟩
  | .getkey sel => ⟨opGetkey, if sel then 1#32 else 0#32, 0#32⟩
  | .encrypt p => ⟨opEncrypt, p, 0#32⟩
  | .decrypt c => ⟨opDecrypt, c, 0#32⟩
  | .normlearn serial => ⟨opNormlearn, serial, 0#32⟩
  | .reflectpack w => ⟨opReflectpack, w, 0#32⟩

/-- The encoder: the canonical word (R67). -/
def encode (i : Instr) : CommandWord := wordOf (canonicalFields i)

/-- The opcode of a command (R62). -/
def opcodeOf (i : Instr) : Opcode := (canonicalFields i).op

/-- The mask of every row of the opcode table: bits 66..64 (R73). -/
def tableMask : CommandWord := 0x70000000000000000#67

/-- The match value of a command's row in the opcode table, written out from R73. -/
def tableMatch : Instr → CommandWord
  | .setkey _ _ => 0x00000000000000000#67
  | .getkey _ => 0x10000000000000000#67
  | .encrypt _ => 0x20000000000000000#67
  | .decrypt _ => 0x30000000000000000#67
  | .normlearn _ => 0x40000000000000000#67
  | .reflectpack _ => 0x50000000000000000#67

/-- The command a table word spells. The format is one word, whose bits the table numbers as R60 does; bits above 66
do not exist and are dropped, bits above `nbits` are 0. -/
def tableWord (nbits w : Nat) : CommandWord := BitVec.ofNat 67 (w % 2 ^ nbits)

/-- What the decoder reads from a table word: none where it refuses. -/
def decodeTableWord (nbits w : Nat) : Option Instr :=
  match decode (tableWord nbits w) with
  | .ok i => some i
  | .error _ => none

end Sys2Proof
end

