-- ==== Sys2Proof/Machine/State.lean ====
section
/-! DEFINITION. The state of the engine as plain data, its reset value, and the reasons a step can stop. -/
namespace Sys2Proof.Machine

/-- The reasons a step can fault: none. "The set of synchronous exceptions is empty" (60_exceptions.md R130, R131), so
the type has no constructor and no step of the model can fault. Safe: nothing stops here. -/
inductive Fault
deriving DecidableEq, Repr

/-- The reasons a step has no meaning. -/
inductive Refusal where
  /-- An instruction without a meaning yet. Raised only by an arm of `exec`; no arm raises it in this model. Safe. -/
  | notModelled (mnemonic : String)
  /-- The word on the command port has `op` 6 or 7 (30_encoding.md R68; 93_implementation_defined.md U1): "a model
  refuses a command word with `op` 6 or 7 (it has no step)". Raised by the step, by the clock edge that would accept
  the word and by the host's protocol check, never by a meaning. Safe: it errs toward unprovable (R50). -/
  | reservedOpcode (op : Opcode)
  /-- The host changed `cmd_op`, `cmd_a` or `cmd_b` while `cmd_valid = 1` and before the accepting edge (20_memory.md
  R50; 93_implementation_defined.md U6): outside the host table, so refused. Raised only by the host's protocol check of
  Machine/Clock.lean. Safe. -/
  | unstableCommand
deriving DecidableEq, Repr

/-- What the response port shows in the cycle after a completing edge (20_memory.md R48, 30_encoding.md R72). -/
inductive Response where
  /-- The pulse only: SETKEY and NORMLEARN. `rsp_q` is unspecified and "a model gives such a command no result value". -/
  | void
  /-- The pulse with the result `q` on `rsp_q`. -/
  | data (q : Word)
deriving DecidableEq, Repr

/-- One move of the host at the command port (20_memory.md R50). The spec makes the command stream a parameter of a run
(00_scope.md R13); the model holds it in State, as the moves still to come. -/
inductive HostMove where
  /-- Present the word until it is accepted, and let the command complete. -/
  | command (w : CommandWord)
  /-- Present the word until it is accepted, and assert `rst` at an edge after the accepting edge, up to and including
  the completing edge (70_reset_and_hazards.md R152). -/
  | abandoned (w : CommandWord)
  /-- Assert `rst` over one rising edge (R150). -/
  | reset
  /-- One cycle in which the host presents nothing. -/
  | idle
deriving DecidableEq, Repr

/-- All the spec gives the engine: the architectural registers `KEYHI` and `KEYLO` (10_state.md R20), the hidden registers
of the reference hardware (R27), the response port (20_memory.md R41); and the host's moves still to come. -/
structure State where
  /-- `KEYHI`: key bits 63..32 (R25). -/
  keyHi : Word
  /-- `KEYLO`: key bits 31..0 (R25). -/
  keyLo : Word
  /-- `X`: the working value of a cipher pass, or the source word of a bit reversal (R27). -/
  regX : Word
  /-- `R`: rounds or iterations already done in the current pass, 0 to 528 (R27). -/
  regR : BitVec 10
  /-- `T`: operand `b` of SETKEY, the derived low half during NORMLEARN, the accumulator of REFLECTPACK (R27). -/
  regT : Word
  /-- `S`: the masked serial during NORMLEARN (R27). -/
  regS : BitVec 28
  /-- `OPL`: the latched opcode of the command in progress (R27). -/
  opl : Opcode
  /-- `PASS`: which of the two decryptions of NORMLEARN is running, true for the second (R27). -/
  pass : Bool
  /-- `BUSY`: a command is in progress (R27). -/
  busy : Bool
  /-- The response port: `rsp_valid` is 1 exactly when this is some response (20_memory.md R48). -/
  rsp : Option Response
  /-- The model's own: the host's moves still to come, the next one first. -/
  host : List HostMove
deriving DecidableEq, Repr

/-- The machine right after reset: the zero key (10_state.md R30), `BUSY = 0` and no response (R31). The spec leaves the
other hidden registers unspecified and lets no rule read them (R28, R31): DESIGN CHOICE, unsafe, zero (log entry 1).
DESIGN CHOICE, safe: no move of the host stands waiting (log entry 3). -/
def State.reset : State where
  keyHi := 0#32
  keyLo := 0#32
  regX := 0#32
  regR := 0#10
  regT := 0#32
  regS := 0#28
  opl := 0#3
  pass := false
  busy := false
  rsp := none
  host := []

end Sys2Proof.Machine
end

