-- ==== Sys2Proof/Machine/Operands.lean ====
section
/-! DEFINITION. The operators of the pseudocode on words and indices, and the operand forms: the select flag, the masked
serial and the two seeds (00_scope.md R9; 30_encoding.md R65; 42_key_derivation.md R110). -/
namespace Sys2Proof.Machine

/-- A single bit as a 32-bit word, 0 or 1: never sign-extended (41_cipher_round_engine.md R105 items 3 and 5). -/
def bitWord (b : Bool) : Word := if b then 1#32 else 0#32

/-- `emod(a, n)`: the Euclidean remainder, in `0 ≤ m < n` also for a negative `a` (R9; 90_conflicts.md C4). -/
def emod (a : Int) (n : Nat) : Nat := (a.emod (n : Int)).toNat

/-- `trunc32(v)`: a wider value reduced to its low 32 bits (R9; 20_memory.md R43). -/
def trunc32 {w : Nat} (v : BitVec w) : Word := v.setWidth 32

/-- The mask that keeps the low 28 bits of a serial (00_scope.md R5). -/
def serialMask : Word := 0x0FFFFFFF#32

/-- The low-half seed constant (R5). -/
def seedLoConst : Word := 0x20000000#32

/-- The high-half seed constant (R5). -/
def seedHiConst : Word := 0x60000000#32

/-- `s28 = a & 0x0FFFFFFF` (30_encoding.md R65). -/
def serial28 (a : Word) : Word := a &&& serialMask

/-- `seedLo(s) = s28 | 0x20000000` (R110). -/
def seedLo (a : Word) : Word := serial28 a ||| seedLoConst

/-- `seedHi(s) = s28 | 0x60000000` (R110). -/
def seedHi (a : Word) : Word := serial28 a ||| seedHiConst

/-- `a[27:0]`, what the register `S` latches (42_key_derivation.md R115). -/
def serialField (a : Word) : BitVec 28 := a.extractLsb' 0 28

/-- The half of the key that GETKEY's select flag names: `KEYHI` for true, `KEYLO` for false (40_key_access.md R81). -/
def selectHalf (sel : Bool) (hi lo : Word) : Word := if sel then hi else lo

end Sys2Proof.Machine
end

