-- ==== Sys2Proof/Machine/Cipher.lean ====
section
/-! DEFINITION. The cipher: the nonlinear function, the key schedule, the forward and inverse rounds and the two 528-round
transforms (41_cipher_round_engine.md R90 to R98), and the bit reversal (43_bit_reversal.md R120 to R122). All are pure
functions of their arguments. -/
namespace Sys2Proof.Machine

/-- `NLF`: a constant of the definition, neither state nor configuration (R90; 10_state.md R26). -/
def nlf : Word := 0x3A5C742E#32

/-- `NLFbit(i) = bit(NLF, i)` (R90). -/
def nlfBit (i : Nat) : Bool := nlf.getLsbD i

/-- The exact number of rounds of ENCRYPT and of DECRYPT (00_scope.md R5; 90_conflicts.md C3). -/
def roundCount : Nat := 528

/-- The exact number of iterations of REFLECTPACK (R5). -/
def reflectCount : Nat := 32

/-- `t0 + 2·t1 + 4·t2 + 8·t3 + 16·t4`: five tapped bits as an index, the first the least significant (R90). -/
def tapIndex (t0 t1 t2 t3 t4 : Bool) : Nat :=
  t0.toNat + 2 * t1.toNat + 4 * t2.toNat + 8 * t3.toNat + 16 * t4.toNat

/-- `KEY[j]`: bit `j` of `KEYLO` if `j < 32`, else bit `j - 32` of `KEYHI` (10_state.md R21). -/
def keyBit (hi lo : Word) (j : Nat) : Bool := if j < 32 then lo.getLsbD j else hi.getLsbD (j - 32)

/-- `kf(r) = emod(r, 64)` (R91). -/
def kf (r : Nat) : Nat := emod r 64

/-- `kd(r) = emod(15 - r, 64)`, the subtraction exact and signed (R95). -/
def kd (r : Nat) : Nat := emod (15 - (r : Int)) 64

/-- `IdxF(x)`: the forward taps 1, 9, 20, 26, 31 (R92). -/
def idxF (x : Word) : Nat :=
  tapIndex (x.getLsbD 1) (x.getLsbD 9) (x.getLsbD 20) (x.getLsbD 26) (x.getLsbD 31)

/-- `IdxD(x)`: the inverse taps 0, 8, 19, 25, 30 (R96). -/
def idxD (x : Word) : Nat :=
  tapIndex (x.getLsbD 0) (x.getLsbD 8) (x.getLsbD 19) (x.getLsbD 25) (x.getLsbD 30)

/-- The feedback bit of a forward round (R93). -/
def encFeedback (x : Word) (k : Bool) : Bool := x.getLsbD 0 ^^ x.getLsbD 16 ^^ nlfBit (idxF x) ^^ k

/-- `EncRound(x, k)`: shift right by one, the feedback bit entering at bit 31 (R93). -/
def encRound (x : Word) (k : Bool) : Word := (x >>> 1) ||| (bitWord (encFeedback x k) <<< 31)

/-- The feedback bit of an inverse round (R97). -/
def decFeedback (x : Word) (k : Bool) : Bool := x.getLsbD 31 ^^ x.getLsbD 15 ^^ nlfBit (idxD x) ^^ k

/-- `DecRound(x, k)`: shift left by one, truncated, the feedback bit entering at bit 0 (R97). -/
def decRound (x : Word) (k : Bool) : Word := (x <<< 1) ^^^ bitWord (decFeedback x k)

/-- The working value after the first `n` forward rounds, rounds `0 .. n-1` in this order (R94). -/
def encRounds (hi lo : Word) : Nat → Word → Word
  | 0, x => x
  | n + 1, x => encRound (encRounds hi lo n x) (keyBit hi lo (kf n))

/-- The working value after the first `n` inverse rounds (R98). -/
def decRounds (hi lo : Word) : Nat → Word → Word
  | 0, x => x
  | n + 1, x => decRound (decRounds hi lo n x) (keyBit hi lo (kd n))

/-- The result of ENCRYPT under the key `{hi, lo}` (R94). -/
def encryptWord (hi lo p : Word) : Word := encRounds hi lo roundCount p

/-- The result of DECRYPT under the key `{hi, lo}` (R98); `Dec(c, h, l)` of 42_key_derivation.md. -/
def decryptWord (hi lo c : Word) : Word := decRounds hi lo roundCount c

/-- The closed form of the bit reversal: bit `i` of the result is bit `31 - i` of the operand (43_bit_reversal.md R120). -/
def reflectWord (a : Word) : Word := BitVec.ofFnLE fun i : Fin 32 => a.getLsbD (31 - i.val)

/-- The accumulator and the source after `n` iterations of the source's loop, in an accumulator of any width `w` with any
starting value (R121, R122). -/
def reflectIter {w : Nat} (acc : BitVec w) (a : Word) : Nat → BitVec w × Word
  | 0 => (acc, a)
  | n + 1 =>
    let q := reflectIter acc a n
    ((q.1 <<< 1) ||| (BitVec.ofBool (q.2.getLsbD 0)).setWidth w, q.2 >>> 1)

end Sys2Proof.Machine
end

