-- ==== Sys2Proof/Machine/Flags.lean ====
section
/-! DEFINITION. The engine has no flag, condition code or status register (10_state.md R24), so there is no flag
computation to write. "The only status a host sees is the handshake" (R24): the status outputs of the port
(20_memory.md R41, R48). -/
namespace Sys2Proof.Machine

/-- `cmd_ready = 1` exactly when `BUSY = 0` and `rst = 0` (R48). -/
def State.cmdReady (rst : Bool) (s : State) : Bool := !s.busy && !rst

/-- `rsp_valid` (R48). -/
def State.rspValid (s : State) : Bool := s.rsp.isSome

/-- `rsp_q` where the spec defines it: only while `rsp_valid = 1` and only for a command that returns data (R41, R72).
None where it is unspecified: the model gives it no value there (93_implementation_defined.md U2, U3). -/
def State.rspQ (s : State) : Option Word :=
  match s.rsp with
  | some (.data q) => some q
  | some .void => none
  | none => none

end Sys2Proof.Machine
end

