-- ==== Sys2Proof/Machine/Ops.lean ====
section
/-! DEFINITION. The named operations over the registers: writing the key, completing a command, a reset edge, an idle
cycle. There is no memory (20_memory.md R40), and no exception is ever taken and none returned from (60_exceptions.md
R130, R135, R136), so no operation for either stands here. -/
namespace Sys2Proof.Machine

/-- Both halves of the key replaced in one step (20_memory.md R44; 92_eei_decisions.md D19). -/
def State.writeKey (hi lo : Word) (s : State) : State := { s with keyHi := hi, keyLo := lo }

/-- A command with opcode `op` completes: `BUSY` falls, the response stands on the port, and `OPL` keeps the opcode it
latched (R48; 10_state.md R28: hidden registers are not cleared when a command ends). -/
def State.complete (op : Opcode) (rsp : Response) (s : State) : State :=
  { s with opl := op, busy := false, rsp := some rsp }

/-- A cycle in which nothing completes: the response pulse of the cycle before is over (R48), all else is held
(10_state.md R32; 60_exceptions.md R143). -/
def State.quiet (s : State) : State := { s with rsp := none }

/-- A reset edge (70_reset_and_hazards.md R150 to R152): the state is the reset state whatever it was before, so a running
command commits nothing and gives no response. The host's coming moves are not the engine's and stay. -/
def State.resetEdge (s : State) : State := { State.reset with host := s.host }

/-- The 64-bit key `KEY = {KEYHI, KEYLO}` (10_state.md R21): a view, not a register. -/
def State.key (s : State) : KeyWord := s.keyHi ++ s.keyLo

end Sys2Proof.Machine
end

