-- ==== Sys2Proof/Machine/Clock.lean ====
section
/-! DEFINITION. The reference hardware, one rising edge of `clk` at a time: the accepting edge, the working edges of each
command, the reset edge and the idle edge (20_memory.md R41, R48; 41_cipher_round_engine.md R106; 42_key_derivation.md R115;
43_bit_reversal.md R125; 70_reset_and_hazards.md R150 to R152, R164). No value of the command-level step depends on it
(00_scope.md R12); that it refines that step is a statement. After it, the host's side of the protocol (20_memory.md R50). -/
namespace Sys2Proof.Machine

/-- The input ports at a rising edge of `clk` (R41). -/
structure Pins where
  rst : Bool
  cmdValid : Bool
  cmdOp : Opcode
  cmdA : Word
  cmdB : Word
deriving DecidableEq, Repr

/-- The word presented on the command port (R60). -/
def Pins.word (p : Pins) : CommandWord := wordOf ⟨p.cmdOp, p.cmdA, p.cmdB⟩

/-- The pins that present a word, with `rst = 0`. -/
def Pins.present (w : CommandWord) : Pins := ⟨false, true, opOf w, aOf w, bOf w⟩

/-- What the accepting edge of a command loads into the hidden registers beside `OPL` and `BUSY` (R106, R115, R125, R164;
which register holds GETKEY's flag is log entry 4). -/
def State.load (i : Instr) (s : State) : State :=
  match i with
  | .setkey hi lo => { s with regX := hi, regT := lo }
  | .getkey sel => { s with regX := bitWord sel }
  | .encrypt p => { s with regX := p, regR := 0#10 }
  | .decrypt c => { s with regX := c, regR := 0#10 }
  | .normlearn serial => { s with regS := serialField serial, regX := seedLo serial, regR := 0#10, pass := false }
  | .reflectpack w => { s with regX := w, regT := 0#32, regR := 0#10 }

/-- The state after the accepting edge of a command: its registers loaded, `OPL` latched, `BUSY = 1` (R48, R106). -/
def State.accept (i : Instr) (s : State) : State :=
  { (s.load i).quiet with opl := opcodeOf i, busy := true }

/-- One working edge of ENCRYPT (R106): a round, and completion at the edge that takes `R` from 527 to 528. -/
def State.encryptEdge (s : State) : State :=
  let y := encRound s.regX (keyBit s.keyHi s.keyLo (kf s.regR.toNat))
  let t := { s.quiet with regX := y, regR := s.regR + 1#10 }
  if s.regR = 527#10 then t.complete opEncrypt (.data y) else t

/-- One working edge of DECRYPT (R106). -/
def State.decryptEdge (s : State) : State :=
  let y := decRound s.regX (keyBit s.keyHi s.keyLo (kd s.regR.toNat))
  let t := { s.quiet with regX := y, regR := s.regR + 1#10 }
  if s.regR = 527#10 then t.complete opDecrypt (.data y) else t

/-- One working edge of NORMLEARN (R115): at the 528th edge of pass 0 the round's output goes to `T` and the second seed
is loaded; at the 528th edge of pass 1 both halves of the key are written together. -/
def State.normlearnEdge (s : State) : State :=
  let y := decRound s.regX (keyBit s.keyHi s.keyLo (kd s.regR.toNat))
  if s.regR = 527#10 then
    if s.pass then
      ({ s.quiet with regX := y, regR := s.regR + 1#10 }.writeKey y s.regT).complete opNormlearn .void
    else
      { s.quiet with regT := y, regX := 0b0110#4 ++ s.regS, regR := 0#10, pass := true }
  else { s.quiet with regX := y, regR := s.regR + 1#10 }

/-- One working edge of REFLECTPACK (R125): the 32nd completes. -/
def State.reflectEdge (s : State) : State :=
  let q := (s.regT <<< 1) ||| bitWord (s.regX.getLsbD 0)
  let t := { s.quiet with regT := q, regX := s.regX >>> 1, regR := s.regR + 1#10 }
  if s.regR = 31#10 then t.complete opReflectpack (.data q) else t

/-- A rising edge at which a command is in progress, by `OPL`. SETKEY and GETKEY complete at their one edge (R164). The two
reserved opcodes are never latched, since no edge accepts them (30_encoding.md R68). -/
def State.work (s : State) : Host.Outcome State Fault Refusal :=
  if s.opl = opSetkey then .next ((s.writeKey s.regX s.regT).complete opSetkey .void)
  else if s.opl = opGetkey then
    .next (s.complete opGetkey (.data (selectHalf (s.regX.getLsbD 0) s.keyHi s.keyLo)))
  else if s.opl = opEncrypt then .next s.encryptEdge
  else if s.opl = opDecrypt then .next s.decryptEdge
  else if s.opl = opNormlearn then .next s.normlearnEdge
  else if s.opl = opReflectpack then .next s.reflectEdge
  else .refused (.reservedOpcode s.opl)

/-- One rising edge of `clk` (R48, R150). Reset wins (60_exceptions.md R134); a running command goes on whatever the
command port shows; an idle engine accepts the presented command; otherwise nothing happens. -/
def edge (p : Pins) (s : State) : Host.Outcome State Fault Refusal :=
  if p.rst then .next s.resetEdge
  else if s.busy then s.work
  else if p.cmdValid then
    match decode p.word with
    | .ok i => .next (s.accept i)
    | .error (.reserved op) => .refused (.reservedOpcode op)
  else .next s.quiet

/-- Rising edges one after another, the first of the list first. -/
def edges : List Pins → State → Host.Outcome State Fault Refusal
  | [], s => .next s
  | p :: ps, s =>
    match edge p s with
    | .next t => edges ps t
    | .fault f => .fault f
    | .refused r => .refused r

/-- The command in progress run to its completion, at most `fuel` working edges (R166: every accepted command completes).
The longest, NORMLEARN, takes 1056 (R164). -/
def State.finish : Nat → State → Host.Outcome State Fault Refusal
  | 0, s => .next s
  | fuel + 1, s =>
    if s.busy then
      match s.work with
      | .next t => t.finish fuel
      | .fault f => .fault f
      | .refused r => .refused r
    else .next s

/-- The word still presented and not yet accepted after an edge, which the host must keep stable (R50). -/
def stillOffered (p : Pins) (s : State) : Option CommandWord :=
  if p.cmdValid && !s.cmdReady p.rst then some p.word else none

/-- One edge with the host held to its duties of R50: it never presents `op` 6 or 7 (U1) and never changes a command it
presents before that is accepted (U6). Both are refused; any other move is the engine's edge. -/
def hostEdge (offered : Option CommandWord) (p : Pins) (s : State) : Host.Outcome State Fault Refusal :=
  if p.cmdValid then
    match decode p.word with
    | .error (.reserved op) => .refused (.reservedOpcode op)
    | .ok _ => if offered = none ∨ offered = some p.word then edge p s else .refused .unstableCommand
  else edge p s

/-- Edges one after another under the host's duties, `offered` being what the edge before left presented. -/
def hostEdges : Option CommandWord → List Pins → State → Host.Outcome State Fault Refusal
  | _, [], s => .next s
  | offered, p :: ps, s =>
    match hostEdge offered p s with
    | .next t => hostEdges (stillOffered p s) ps t
    | .fault f => .fault f
    | .refused r => .refused r

end Sys2Proof.Machine
end

