-- ==== Sys2Proof/Machine/BitReversal.lean ====
section
/-! DEFINITION. The meaning of REFLECTPACK (43_bit_reversal.md R120). The hidden registers are left as R125 leaves them. -/
namespace Sys2Proof.Machine

/-- REFLECTPACK (R120): the operand with its 32 bits in reverse order; the key is neither read nor written (R124). -/
def execReflectpack (w : Word) (s : State) : Host.Outcome State Fault Refusal :=
  .next ({ s with regX := 0#32, regR := 32#10, regT := reflectWord w }.complete opReflectpack
    (.data (reflectWord w)))

end Sys2Proof.Machine
end

