-- ==== Sys2Proof/Machine/KeyAccess.lean ====
section
/-! DEFINITION. The meanings of SETKEY and GETKEY (40_key_access.md). What each leaves in the hidden registers is what
the reference sequencing leaves there (70_reset_and_hazards.md R164; log entry 4); nothing reads it (10_state.md R28). -/
namespace Sys2Proof.Machine

/-- SETKEY (R80): `KEYHI <- a`, `KEYLO <- b`, both together; no result. -/
def execSetkey (hi lo : Word) (s : State) : Host.Outcome State Fault Refusal :=
  .next (({ s with regX := hi, regT := lo }.writeKey hi lo).complete opSetkey .void)

/-- GETKEY (R81): the selected half is the result; no state is written. -/
def execGetkey (sel : Bool) (s : State) : Host.Outcome State Fault Refusal :=
  .next ({ s with regX := bitWord sel }.complete opGetkey (.data (selectHalf sel s.keyHi s.keyLo)))

end Sys2Proof.Machine
end

