-- ==== Sys2Proof/Machine/KeyDerivation.lean ====
section
/-! DEFINITION. The meaning of NORMLEARN (42_key_derivation.md R110 to R112). The hidden registers are left as R115 leaves
them (log entry 4). -/
namespace Sys2Proof.Machine

/-- The derived low half: the decryption of the low seed under the manufacturer key `{hi, lo}` (R111 step 1). -/
def derivedLo (hi lo serial : Word) : Word := decryptWord hi lo (seedLo serial)

/-- The derived high half: the decryption of the high seed under the same key (R111 step 2, R112). -/
def derivedHi (hi lo serial : Word) : Word := decryptWord hi lo (seedHi serial)

/-- NORMLEARN (R111): both halves are derived from the key at the start of the command and replace it together. -/
def execNormlearn (serial : Word) (s : State) : Host.Outcome State Fault Refusal :=
  .next (({ s with
      regX := derivedHi s.keyHi s.keyLo serial
      regR := 528#10
      regT := derivedLo s.keyHi s.keyLo serial
      regS := serialField serial
      pass := true }.writeKey (derivedHi s.keyHi s.keyLo serial) (derivedLo s.keyHi s.keyLo serial)).complete
    opNormlearn .void)

end Sys2Proof.Machine
end

