-- ==== Sys2Proof/Machine/RoundEngine.lean ====
section
/-! DEFINITION. The meanings of ENCRYPT and DECRYPT (41_cipher_round_engine.md R94, R98). The hidden registers are left as
R106 leaves them: `X` the result, `R` at 528. -/
namespace Sys2Proof.Machine

/-- ENCRYPT (R94): the forward 528-round transform of the operand under the stored key. -/
def execEncrypt (p : Word) (s : State) : Host.Outcome State Fault Refusal :=
  .next ({ s with regX := encryptWord s.keyHi s.keyLo p, regR := 528#10 }.complete opEncrypt
    (.data (encryptWord s.keyHi s.keyLo p)))

/-- DECRYPT (R98): the inverse 528-round transform of the operand under the stored key. -/
def execDecrypt (c : Word) (s : State) : Host.Outcome State Fault Refusal :=
  .next ({ s with regX := decryptWord s.keyHi s.keyLo c, regR := 528#10 }.complete opDecrypt
    (.data (decryptWord s.keyHi s.keyLo c)))

end Sys2Proof.Machine
end

