-- ==== Sys2Proof/Machine/Dispatch.lean ====
section
/-! DEFINITION. One arm per command (30_encoding.md R62): the command-level step of 00_scope.md R12. -/
namespace Sys2Proof.Machine

def exec (i : Instr) (s : State) : Host.Outcome State Fault Refusal :=
  match i with
  | .setkey hi lo => Sys2Proof.Machine.execSetkey hi lo s
  | .getkey sel => Sys2Proof.Machine.execGetkey sel s
  | .encrypt p => Sys2Proof.Machine.execEncrypt p s
  | .decrypt c => Sys2Proof.Machine.execDecrypt c s
  | .normlearn serial => Sys2Proof.Machine.execNormlearn serial s
  | .reflectpack w => Sys2Proof.Machine.execReflectpack w s

end Sys2Proof.Machine
end

