-- ==== Sys2Proof/Machine/Perform.lean ====
section
/-! DEFINITION. What one move of the host does to the engine, and which move comes next: the work of the step, which only
calls `nextStep`. -/
namespace Sys2Proof.Machine

/-- A word on the command port of an idle engine: decoded, and executed as one atomic step (00_scope.md R12); a reserved
word has no step (30_encoding.md R68). -/
def perform (w : CommandWord) (s : State) : Host.Outcome State Fault Refusal :=
  match decode w with
  | .ok i => exec i s
  | .error (.reserved op) => .refused (.reservedOpcode op)

/-- A command accepted and then abandoned by reset, at any edge up to and including its completing one: nothing is
committed, no response is given, and the state is the reset state (70_reset_and_hazards.md R152). -/
def abandon (w : CommandWord) (s : State) : Host.Outcome State Fault Refusal :=
  match decode w with
  | .ok _ => .next s.resetEdge
  | .error (.reserved op) => .refused (.reservedOpcode op)

/-- More working edges than any command takes, from any value of the registers: `R` has ten bits and NORMLEARN two passes. -/
def finishFuel : Nat := 2048

/-- One move at an idle engine. -/
def moveIdle (m : HostMove) (s : State) : Host.Outcome State Fault Refusal :=
  match m with
  | .command w => perform w s
  | .abandoned w => abandon w s
  | .reset => .next s.resetEdge
  | .idle => .next s.quiet

/-- One step: the host's next move. A host with no more moves leaves the engine idle, which "simply holds the key and
waits" (60_exceptions.md R143). An engine with a command in progress, which only the clock edges leave behind, is not
served before it is idle (20_memory.md R48): the step then is that command's completion, or the reset that abandons it. -/
def nextStep (s : State) : Host.Outcome State Fault Refusal :=
  match s.host with
  | [] => if s.busy then s.finish finishFuel else .next s.quiet
  | .reset :: ms => .next { s with host := ms }.resetEdge
  | m :: ms => if s.busy then s.finish finishFuel else moveIdle m { s with host := ms }

end Sys2Proof.Machine
end

