-- ==== Sys2Proof/Machine/Step.lean ====
section
/-! DEFINITION. The step, and the placing of a command where the step takes its next one. -/
namespace Sys2Proof.Machine

/-- One step of the machine: one move of the host, one whole command at most (00_scope.md R12). -/
def step (s : State) : Host.Outcome State Fault Refusal := nextStep s

/-- The engine fetches nothing (10_state.md R23; 20_memory.md R51): a command comes from the port. The word is put in
front of the host's moves, and the engine is idle, as it must be to accept it (R48; log entry 3). -/
def State.withFetchWord (s : State) (nbits w : Nat) : State :=
  { s with host := .command (tableWord nbits w) :: s.host, busy := false }

end Sys2Proof.Machine
end

