-- ==== Sys2Proof/Config.lean ====
section
/-! DEFINITION. What an implementation fixes: only the latency `LAT` (00_scope.md R6; 93_implementation_defined.md U8),
which no value rule reads. Machine/Handshake.lean takes it as an argument; here stand its reference defaults
(70_reset_and_hazards.md R164). The constants of the cipher are not configuration (00_scope.md R5, 10_state.md R26):
they stand in Machine/Cipher.lean. -/
namespace Sys2Proof

/-- The reference latency of the command with this opcode, in rising clock edges after the accepting edge up to and
including the completing edge (R164). The two reserved opcodes are never accepted (R68), so their value is never read. -/
def Config.refLat (op : Opcode) : Nat :=
  match op.toNat with
  | 0 => 1
  | 1 => 1
  | 2 => 528
  | 3 => 528
  | 4 => 1056
  | _ => 32

end Sys2Proof
end

