-- ==== Sys2Proof/Machine/Handshake.lean ====
section
/-! DEFINITION. The handshake for ANY latency (20_memory.md R48; 93_implementation_defined.md U8): one rising edge of an
implementation about which only `LAT` is known, a command taking effect as a whole at its completing edge. An
implementation that does several rounds a cycle is one of these (41_cipher_round_engine.md R106). -/
namespace Sys2Proof.Machine

/-- A command in progress: which, and how many edges up to and including its completing edge are still to come. -/
structure Job where
  instr : Instr
  left : Nat
deriving DecidableEq, Repr

/-- The engine behind the port: its registers, and the command in progress if there is one (`BUSY`). -/
structure Port where
  core : State
  job : Option Job
deriving DecidableEq, Repr

/-- An idle engine. -/
def Port.idle (s : State) : Port := ⟨s, none⟩

/-- One rising edge (R48, R150, R134). `lat` depends on the opcode alone (70_reset_and_hazards.md R165). -/
def Port.edge (lat : Opcode → Nat) (p : Pins) (m : Port) : Host.Outcome Port Fault Refusal :=
  if p.rst then .next (Port.idle m.core.resetEdge)
  else
    match m.job with
    | some j =>
      if j.left ≤ 1 then
        match exec j.instr m.core with
        | .next t => .next (Port.idle t)
        | .fault f => .fault f
        | .refused r => .refused r
      else .next ⟨m.core.quiet, some ⟨j.instr, j.left - 1⟩⟩
    | none =>
      if p.cmdValid then
        match decode p.word with
        | .ok i => .next ⟨m.core.quiet, some ⟨i, lat (opcodeOf i)⟩⟩
        | .error (.reserved op) => .refused (.reservedOpcode op)
      else .next (Port.idle m.core.quiet)

/-- Rising edges one after another. -/
def Port.edges (lat : Opcode → Nat) : List Pins → Port → Host.Outcome Port Fault Refusal
  | [], m => .next m
  | p :: ps, m =>
    match m.edge lat p with
    | .next n => n.edges lat ps
    | .fault f => .fault f
    | .refused r => .refused r

/-- What the outside can see of an engine between two edges, with the architectural registers beside it: ready (while
`rst = 0`), the response, and the key. -/
structure View where
  ready : Bool
  rsp : Option Response
  keyHi : Word
  keyLo : Word
deriving DecidableEq, Repr

/-- The view of the reference hardware. -/
def State.view (s : State) : View := ⟨s.cmdReady false, s.rsp, s.keyHi, s.keyLo⟩

/-- The view of an engine behind the handshake. -/
def Port.view (m : Port) : View := ⟨m.job.isNone, m.core.rsp, m.core.keyHi, m.core.keyLo⟩

end Sys2Proof.Machine
end

