-- ==== Sys2Proof/Machine/Instances.lean ====
section
/-! DEFINITION. Several engine instances (10_state.md R33; 60_exceptions.md R141): each owns its registers, they share
nothing but the constant `NLF`, and a command goes to one of them. -/
namespace Sys2Proof.Machine

/-- One step of instance `k` among `n`. -/
def stepInstance {n : Nat} (k : Fin n) (es : Vector State n) : Host.Outcome (Vector State n) Fault Refusal :=
  match step es[k] with
  | .next t => .next (es.set k t)
  | .fault f => .fault f
  | .refused r => .refused r

end Sys2Proof.Machine
end

