-- ==== Sys2Proof/Machine/Listing.lean ====
section
/-! DEFINITION. This spec's listings: the expansion of the pseudo-commands (30_encoding.md R71) and the text of a command
(R70). Neither is part of a step. -/
namespace Sys2Proof.Machine

/-- `k[63:32]` (R71). -/
def keyHiOf (k : KeyWord) : Word := k.extractLsb' 32 32

/-- `k[31:0]` (R71). -/
def keyLoOf (k : KeyWord) : Word := k.extractLsb' 0 32

/-- The commands a pseudo-command stands for (R71). -/
def expand : Pseudo → List Instr
  | .getkeyh => [.getkey true]
  | .getkeyl => [.getkey false]
  | .setkey64 k => [.setkey (keyHiOf k) (keyLoOf k)]
  | .learn k serial => [.setkey (keyHiOf k) (keyLoOf k), .normlearn serial]

/-- A hexadecimal digit, the letters in capitals as in the spec's listings. -/
def hexDigit (n : Nat) : Char := if n < 10 then Char.ofNat (48 + n) else Char.ofNat (55 + n)

/-- A word as `0x` and eight hexadecimal digits, the most significant first (00_scope.md R7; R70). -/
def hexWord (w : Word) : List Char :=
  '0' :: 'x' :: (List.range 8).map fun i => hexDigit (w.toNat / 16 ^ (7 - i) % 16)

/-- A command as one line of a listing: the mnemonic, then the operands with a comma between (R70). -/
def listing : Instr → List Char
  | .setkey hi lo => "SETKEY ".toList ++ hexWord hi ++ ", ".toList ++ hexWord lo
  | .getkey sel => "GETKEY ".toList ++ [if sel then '1' else '0']
  | .encrypt p => "ENCRYPT ".toList ++ hexWord p
  | .decrypt c => "DECRYPT ".toList ++ hexWord c
  | .normlearn serial => "NORMLEARN ".toList ++ hexWord serial
  | .reflectpack w => "REFLECTPACK ".toList ++ hexWord w

end Sys2Proof.Machine
end

