-- ==== Sys2Proof/Machine/Run.lean ====
section
/-! DEFINITION. Runs: the fold of the command-level step over the accepted commands (20_memory.md R47), and the run of all
the host's moves, each with the results the host receives (00_scope.md R13: the observable trace). -/
namespace Sys2Proof.Machine

/-- Commands executed one after another in the order of acceptance, with the responses in the same order (R47). -/
def runCommands : List Instr → State → Host.Outcome (State × List Response) Fault Refusal
  | [], s => .next (s, [])
  | i :: is, s =>
    match exec i s with
    | .next t =>
      match runCommands is t with
      | .next (u, rs) => .next (u, t.rsp.toList ++ rs)
      | .fault f => .fault f
      | .refused r => .refused r
    | .fault f => .fault f
    | .refused r => .refused r

/-- `n` steps of the machine, with the responses the host samples after each (R48: each stands for one cycle only). -/
def runSteps : Nat → State → Host.Outcome (State × List Response) Fault Refusal
  | 0, s => .next (s, [])
  | n + 1, s =>
    match step s with
    | .next t =>
      match runSteps n t with
      | .next (u, rs) => .next (u, t.rsp.toList ++ rs)
      | .fault f => .fault f
      | .refused r => .refused r
    | .fault f => .fault f
    | .refused r => .refused r

end Sys2Proof.Machine
end

