-- ==== Sys2Proof/Safety.lean ====
section
/-! DEFINITION. What the statements are stated in terms of: a host that keeps to the host table, a state no run leaves, and
two states that differ in hidden registers only. -/
namespace Sys2Proof.Machine

/-- The host may make this move: any of the six commands with any operands, and a reset at any time; never a word with
`op` 6 or 7 (20_memory.md R50). -/
def HostMove.allowed : HostMove → Bool
  | .command w => (fieldsOf w).assigned
  | .abandoned w => (fieldsOf w).assigned
  | .reset => true
  | .idle => true

/-- The move replaces the key: a command with the opcode of SETKEY or NORMLEARN, or a reset (10_state.md R29, R32). -/
def HostMove.writesKey : HostMove → Bool
  | .command w => opOf w = opSetkey || opOf w = opNormlearn
  | .abandoned _ => true
  | .reset => true
  | .idle => false

/-- The host keeps to its duties at the edges of the list, `kept` being the word it must keep at the first of them if it
presents any: every word it presents has an assigned opcode, and a word presented at an edge at which `cmd_ready = 0` is
kept at the next edge as long as `cmd_valid = 1` (20_memory.md R50). Withdrawing it is allowed (log entry 7). -/
def HostLawful : Option CommandWord → List Pins → State → Prop
  | _, [], _ => True
  | kept, p :: ps, s =>
    (p.cmdValid = true → (fieldsOf p.word).assigned = true ∧ ∀ w, kept = some w → p.word = w) ∧
    ∀ t, edge p s = .next t →
      HostLawful (if p.cmdValid = true ∧ s.cmdReady p.rst = false then some p.word else none) ps t

/-- The command writes the key (10_state.md R29). -/
def commandWritesKey : Instr → Bool
  | .setkey _ _ => true
  | .getkey _ => false
  | .encrypt _ => false
  | .decrypt _ => false
  | .normlearn _ => true
  | .reflectpack _ => false

/-- The architectural state: "a model's state type is exactly the pair (KEYHI, KEYLO)" (10_state.md R20). -/
def State.arch (s : State) : Word × Word := (s.keyHi, s.keyLo)

/-- Two states alike in all but the hidden registers that no rule reads at a command boundary: `X`, `R`, `T`, `S`, `OPL`,
`PASS` (10_state.md R28). -/
def State.SameButHidden (s t : State) : Prop :=
  s.keyHi = t.keyHi ∧ s.keyLo = t.keyLo ∧ s.busy = t.busy ∧ s.rsp = t.rsp ∧ s.host = t.host

/-- Two outcomes alike: both next states related by `rel`, or both the same stop. -/
def Alike {σ : Type} (rel : σ → σ → Prop) : Host.Outcome σ Fault Refusal → Host.Outcome σ Fault Refusal → Prop
  | .next s, .next t => rel s t
  | .fault f, .fault g => f = g
  | .refused r, .refused q => r = q
  | _, _ => False

/-- The command in progress is one of the six and its hidden registers hold what the reference sequencing puts there after
`R` of its rounds (R106, R115, R125). -/
structure State.InFlight (s : State) : Prop where
  assigned : s.opl.toNat ≤ 5
  cipherCount : s.opl = opEncrypt ∨ s.opl = opDecrypt ∨ s.opl = opNormlearn → s.regR.toNat < roundCount
  reflectCount : s.opl = opReflectpack → s.regR.toNat < reflectCount
  firstPass : s.opl = opNormlearn → s.pass = false →
    s.regX = decRounds s.keyHi s.keyLo s.regR.toNat (0b0010#4 ++ s.regS)
  secondPass : s.opl = opNormlearn → s.pass = true →
    s.regT = decryptWord s.keyHi s.keyLo (0b0010#4 ++ s.regS) ∧
      s.regX = decRounds s.keyHi s.keyLo s.regR.toNat (0b0110#4 ++ s.regS)

/-- The invariant of the machine: `R` stays in its range 0 to 528 (10_state.md R27); a running command is in flight as the
sequencing says and shows no response (20_memory.md R48); and a response is the one its opcode gives (30_encoding.md
R72), the two halves just derived by NORMLEARN never being equal (42_key_derivation.md R113). -/
structure State.Inv (s : State) : Prop where
  count : s.regR.toNat ≤ roundCount
  running : s.busy = true → s.rsp = none ∧ s.InFlight
  data : ∀ q, s.rsp = some (.data q) →
    s.opl = opGetkey ∨ s.opl = opEncrypt ∨ s.opl = opDecrypt ∨ s.opl = opReflectpack
  pulse : s.rsp = some .void → s.opl = opSetkey ∨ (s.opl = opNormlearn ∧ s.keyHi ≠ s.keyLo)

end Sys2Proof.Machine
end

