-- ==== Sys2Proof/Certificates/Slice0/Obligations.lean ====
section
/-! DEFINITION. The statements about the engine, from the numbered rules of spec/. Each docstring names the rule it
formalises; where a clause rests on a choice of the model's, it names the log entry. -/
open Sys2Proof Sys2Proof.Machine

/-! ### Encoding and decoding -/

/-- 30_encoding.md R62, R63, R65, R66, R68: every word decodes by its opcode alone to exactly one of the six commands, its
operands the fields of the word, or is reserved. -/
def Obligations.DecoderSelectsByOpcode : Prop :=
  ∀ w : CommandWord,
    (opOf w = 0#3 → decode w = .ok (.setkey (aOf w) (bOf w))) ∧
    (opOf w = 1#3 → decode w = .ok (.getkey ((aOf w).getLsbD 0))) ∧
    (opOf w = 2#3 → decode w = .ok (.encrypt (aOf w))) ∧
    (opOf w = 3#3 → decode w = .ok (.decrypt (aOf w))) ∧
    (opOf w = 4#3 → decode w = .ok (.normlearn (aOf w))) ∧
    (opOf w = 5#3 → decode w = .ok (.reflectpack (aOf w))) ∧
    (opOf w = 6#3 ∨ opOf w = 7#3 → decode w = .error (.reserved (opOf w)))

/-- A few words of 95_test_vectors.md decode to the commands listed there: the first is an assembled word of section 8.1, the
other eight are words of the decoding table of section 8.2. -/
def Obligations.ListedWordsDecode : Prop :=
  decode 0x05CEC6701B79FD949#67 = .ok (.setkey 0x5CEC6701#32 0xB79FD949#32) ∧
  decode 0x1FFFFFFFEDEADBEEF#67 = .ok (.getkey false) ∧
  decode 0x1FFFFFFFFFFFFFFFF#67 = .ok (.getkey true) ∧
  decode 0x2F741E2DBFFFFFFFF#67 = .ok (.encrypt 0xF741E2DB#32) ∧
  decode 0x3E44F4CDF00000000#67 = .ok (.decrypt 0xE44F4CDF#32) ∧
  decode 0x4F123456755555555#67 = .ok (.normlearn 0xF1234567#32) ∧
  decode 0x500000001CAFEF00D#67 = .ok (.reflectpack 0x00000001#32) ∧
  decode 0x6F741E2DB00000000#67 = .error (.reserved 6#3) ∧
  decode 0x7FFFFFFFFFFFFFFFF#67 = .error (.reserved 7#3)

/-- Decoding undoes encoding, for every command with every operand: no bit of an encoding is dropped. -/
def Obligations.DecodeOfEncode : Prop :=
  ∀ i : Instr, i.wellFormed = true → decode (encode i) = .ok i

/-- R67: an assembler's word has 0 in every ignored bit, for every command; NORMLEARN's serial stands in it as given. -/
def Obligations.EncodingIsCanonical : Prop :=
  (∀ i : Instr, (∀ hi lo, i ≠ .setkey hi lo) → bOf (encode i) = 0#32) ∧
  (∀ sel : Bool, ∀ j, 1 ≤ j → (aOf (encode (.getkey sel))).getLsbD j = false) ∧
  (∀ serial : Word, aOf (encode (.normlearn serial)) = serial)

/-- Encoding undoes decoding, for every canonical word: two canonical words never spell one command. -/
def Obligations.EncodeOfDecode : Prop :=
  ∀ (w : CommandWord) (i : Instr), decode w = .ok i → (fieldsOf w).canonical = true → encode i = w

/-- The mask and match values of the opcode table (R73) select exactly the words that decode to a command of the row. -/
def Obligations.TableMatchSelectsCommand : Prop :=
  ∀ (w : CommandWord) (i : Instr),
    w &&& tableMask = tableMatch i ↔ ∃ j, decode w = .ok j ∧ opcodeOf j = opcodeOf i

/-- R64: an ignored bit changes neither the result nor the next state and never causes an error. Two words with the same
opcode that agree in the bits their command uses do the same, in every state: the same outcome, whole. -/
def Obligations.IgnoredBitsHaveNoEffect : Prop :=
  ∀ (w v : CommandWord) (s : State), opOf w = opOf v →
    (opOf w = 0#3 → aOf w = aOf v ∧ bOf w = bOf v) →
    (opOf w = 1#3 → (aOf w).getLsbD 0 = (aOf v).getLsbD 0) →
    (opOf w = 2#3 ∨ opOf w = 3#3 ∨ opOf w = 5#3 → aOf w = aOf v) →
    (opOf w = 4#3 → ∀ j < 28, (aOf w).getLsbD j = (aOf v).getLsbD j) →
    perform w s = perform v s

/-- R68: a word with `op` 6 or 7 has no step: the step that would serve it refuses it by name, and so does the clock edge
that would accept it. The host's moves `command` and `abandoned` are the model's own (log entries 3 and 12), and that the
engine's edge refuses where it would accept is its choice (log entry 6). -/
def Obligations.ReservedOpcodeRefused : Prop :=
  ∀ (w : CommandWord) (s : State) (ms : List HostMove), opOf w = 6#3 ∨ opOf w = 7#3 → s.busy = false →
    (s.host = .command w :: ms → step s = .refused (.reservedOpcode (opOf w))) ∧
    (s.host = .abandoned w :: ms → step s = .refused (.reservedOpcode (opOf w))) ∧
    edge (Pins.present w) s = .refused (.reservedOpcode (opOf w))

/-- R71: the expansion of each pseudo-command, and what it does by that expansion, in every state. -/
def Obligations.PseudoCommandsExpand : Prop :=
  (expand .getkeyh = [.getkey true] ∧ expand .getkeyl = [.getkey false]) ∧
  ∀ (k : KeyWord) (serial : Word) (s : State),
    expand (.setkey64 k) = [.setkey (k.extractLsb' 32 32) (k.extractLsb' 0 32)] ∧
    expand (.learn k serial) = [.setkey (k.extractLsb' 32 32) (k.extractLsb' 0 32), .normlearn serial] ∧
    (∃ t, runCommands (expand .getkeyh) s = .next (t, [.data s.keyHi])) ∧
    (∃ t, runCommands (expand .getkeyl) s = .next (t, [.data s.keyLo])) ∧
    (∃ t, runCommands (expand (.setkey64 k)) s = .next (t, [.void]) ∧ t.key = k) ∧
    (∃ t, runCommands (expand (.learn k serial)) s = .next (t, [.void, .void]) ∧
      t.keyHi = decryptWord (k.extractLsb' 32 32) (k.extractLsb' 0 32) (seedHi serial) ∧
      t.keyLo = decryptWord (k.extractLsb' 32 32) (k.extractLsb' 0 32) (seedLo serial))

/-! ### The step -/

/-- When the next move of the host presents a word that decodes to a command, the step of an idle engine is that command's
meaning, the move consumed and nothing else around it; and so for a word placed by `withFetchWord`. The list of moves is
the model's own (log entry 3). -/
def Obligations.StepRunsDecodedCommand : Prop :=
  (∀ (s : State) (w : CommandWord) (ms : List HostMove) (i : Instr),
    s.busy = false → s.host = .command w :: ms → decode w = .ok i → step s = exec i { s with host := ms }) ∧
  (∀ (s : State) (nbits w : Nat) (i : Instr),
    decodeTableWord nbits w = some i → step (s.withFetchWord nbits w) = exec i { s with busy := false })

/-- What the step does for the host's other moves: a reset and an abandoned command leave the zero key,
an idle engine and no response (70_reset_and_hazards.md R151, R152), a cycle without a command leaves the key and ends the
response pulse (60_exceptions.md R143). The list of moves is the model's own (log entries 3 and 12). -/
def Obligations.StepOfOtherMoves : Prop :=
  (∀ (s : State) (ms : List HostMove), s.host = .reset :: ms →
    ∃ t, step s = .next t ∧ t.arch = (0#32, 0#32) ∧ t.busy = false ∧ t.rsp = none ∧ t.host = ms) ∧
  (∀ (s : State) (w : CommandWord) (ms : List HostMove) (i : Instr),
    s.busy = false → s.host = .abandoned w :: ms → decode w = .ok i →
    ∃ t, step s = .next t ∧ t.arch = (0#32, 0#32) ∧ t.busy = false ∧ t.rsp = none ∧ t.host = ms) ∧
  (∀ (s : State) (ms : List HostMove), s.busy = false → s.host = .idle :: ms →
    ∃ t, step s = .next t ∧ t.arch = s.arch ∧ t.busy = false ∧ t.rsp = none ∧ t.host = ms) ∧
  (∀ s : State, s.busy = false → s.host = [] →
    ∃ t, step s = .next t ∧ t.arch = s.arch ∧ t.busy = false ∧ t.rsp = none ∧ t.host = [])

/-- 60_exceptions.md R130: every command, with every operand and from every state, answers a next state with one response,
with data for the four that return a result, never a fault. -/
def Obligations.EveryCommandAnswers : Prop :=
  ∀ (i : Instr) (s : State), ∃ t, exec i s = .next t ∧ t.rspValid = true ∧ t.busy = false ∧ t.host = s.host ∧
    (t.rspQ = none ↔ commandWritesKey i = true)

/-- A run of a host that keeps to the host table (20_memory.md R50) never stops, for any number of steps, and each step
leaves the engine idle. The list of moves is the model's own (log entry 3). -/
def Obligations.AllowedMovesNeverStop : Prop :=
  ∀ (n : Nat) (s : State), s.busy = false → (∀ m ∈ s.host, m.allowed = true) →
    ∃ t rs, runSteps n s = .next (t, rs) ∧ t.busy = false

/-- 20_memory.md R47: commands take effect one at a time in order; each reads the key left by all before it; one response
per command, in the same order. -/
def Obligations.CommandsTakeEffectInOrder : Prop :=
  ∀ (is : List Instr) (i : Instr) (s : State), ∃ t rs u r,
    runCommands is s = .next (t, rs) ∧ rs.length = is.length ∧
    exec i t = .next u ∧ u.rsp = some r ∧ runCommands (is ++ [i]) s = .next (u, rs ++ [r])

/-! ### SETKEY and GETKEY -/

/-- 40_key_access.md R80: the encoding of SETKEY; it replaces both halves of the key, from every state and for every
operand, and gives a response without data. -/
def Obligations.SetkeyReplacesKey : Prop :=
  (∀ a b : Word, decode (0b000#3 ++ a ++ b) = .ok (.setkey a b)) ∧
  ∀ (hi lo : Word) (s : State), ∃ t, exec (.setkey hi lo) s = .next t ∧
    t.keyHi = hi ∧ t.keyLo = lo ∧ t.rsp = some .void ∧ t.rspQ = none ∧ t.busy = false ∧ t.host = s.host

/-- R81: the encoding of GETKEY, whose flag is bit 0 of `a`; it returns `KEYHI` for a true flag and `KEYLO` for a false
one, and writes no state. -/
def Obligations.GetkeyReadsSelectedHalf : Prop :=
  (∀ a b : Word, decode (0b001#3 ++ a ++ b) = .ok (.getkey (a.getLsbD 0))) ∧
  (encode (.getkey true) = 0x10000000100000000#67 ∧ encode (.getkey false) = 0x10000000000000000#67) ∧
  ∀ s : State,
    (∃ t, exec (.getkey true) s = .next t ∧ t.rsp = some (.data s.keyHi) ∧ t.arch = s.arch ∧
      t.busy = false ∧ t.host = s.host) ∧
    (∃ t, exec (.getkey false) s = .next t ∧ t.rsp = some (.data s.keyLo) ∧ t.arch = s.arch ∧
      t.busy = false ∧ t.host = s.host)

/-- R82: GETKEY reads back what SETKEY wrote, what NORMLEARN derived and what reset left, whatever commands that write no
key run in between. -/
def Obligations.KeyReadsBack : Prop :=
  ∀ (is : List Instr) (s : State) (h l serial : Word), (∀ i ∈ is, commandWritesKey i = false) →
    (∃ t rs, runCommands (.setkey h l :: is ++ [.getkey true, .getkey false]) s =
      .next (t, .void :: rs ++ [.data h, .data l])) ∧
    (∃ t rs, runCommands (.normlearn serial :: is ++ [.getkey true, .getkey false]) s =
      .next (t, .void :: rs ++ [.data (decryptWord s.keyHi s.keyLo (seedHi serial)),
        .data (decryptWord s.keyHi s.keyLo (seedLo serial))])) ∧
    (∃ t rs, runCommands (is ++ [.getkey true, .getkey false]) s.resetEdge =
      .next (t, rs ++ [.data 0#32, .data 0#32]))

/-- R83: the key SETKEY writes is the key every later ENCRYPT, DECRYPT and NORMLEARN uses, up to the next key write,
whatever the key was before. -/
def Obligations.NewKeyIsUsed : Prop :=
  ∀ (is : List Instr) (s : State) (h l x : Word), (∀ i ∈ is, commandWritesKey i = false) →
    ∃ t rs, runCommands (.setkey h l :: is ++ [.encrypt x, .decrypt x, .normlearn x]) s =
      .next (t, .void :: rs ++ [.data (encryptWord h l x), .data (decryptWord h l x), .void]) ∧
      t.keyHi = decryptWord h l (seedHi x) ∧ t.keyLo = decryptWord h l (seedLo x)

/-- 70_reset_and_hazards.md R158: a SETKEY of caller B accepted inside caller A's sequence makes the rest of that sequence
run under B's key, with no sign of error: for SETKEY then ENCRYPT, NORMLEARN then GETKEY, the two GETKEYs of one key, and
SETKEY then NORMLEARN. -/
def Obligations.SharedEngineUsesLastKey : Prop :=
  ∀ (s : State) (aHi aLo bHi bLo x : Word),
    (∃ t, runCommands [.setkey aHi aLo, .setkey bHi bLo, .encrypt x] s =
      .next (t, [.void, .void, .data (encryptWord bHi bLo x)])) ∧
    (∃ t, runCommands [.normlearn x, .setkey bHi bLo, .getkey true] s = .next (t, [.void, .void, .data bHi])) ∧
    (∃ t, runCommands [.getkey true, .setkey bHi bLo, .getkey false] s =
      .next (t, [.data s.keyHi, .void, .data bLo])) ∧
    (∃ t, runCommands [.setkey aHi aLo, .setkey bHi bLo, .normlearn x] s = .next (t, [.void, .void, .void]) ∧
      t.keyHi = decryptWord bHi bLo (seedHi x) ∧ t.keyLo = decryptWord bHi bLo (seedLo x))

/-! ### ENCRYPT and DECRYPT -/

/-- 41_cipher_round_engine.md R94: the encoding of ENCRYPT; it is the pseudocode's loop of exactly 528 forward rounds in
order, from every state, under the stored key, which it leaves alone. -/
def Obligations.EncryptRunsForwardRounds : Prop :=
  (∀ a b : Word, decode (0b010#3 ++ a ++ b) = .ok (.encrypt a) ∧ encode (.encrypt a) = 0b010#3 ++ a ++ 0#32) ∧
  ∀ (p : Word) (s : State), ∃ t, exec (.encrypt p) s = .next t ∧
    t.rsp = some (.data ((List.range 528).foldl
      (fun (x : Word) (r : Nat) => encRound x (keyBit s.keyHi s.keyLo (emod (r : Int) 64))) p)) ∧
    t.arch = s.arch ∧ t.busy = false ∧ t.host = s.host

/-- R98: the encoding of DECRYPT; it is the loop of exactly 528 inverse rounds in order. -/
def Obligations.DecryptRunsInverseRounds : Prop :=
  (∀ a b : Word, decode (0b011#3 ++ a ++ b) = .ok (.decrypt a) ∧ encode (.decrypt a) = 0b011#3 ++ a ++ 0#32) ∧
  ∀ (c : Word) (s : State), ∃ t, exec (.decrypt c) s = .next t ∧
    t.rsp = some (.data ((List.range 528).foldl
      (fun (x : Word) (r : Nat) => decRound x (keyBit s.keyHi s.keyLo (emod (15 - (r : Int)) 64))) c)) ∧
    t.arch = s.arch ∧ t.busy = false ∧ t.host = s.host

/-- R90: the table of the nonlinear function, bit `i` of the constant, is 1 exactly at the sixteen listed indices; and the
index is the weighted sum of the five taps, the first the least significant. -/
def Obligations.NlfTableEntries : Prop :=
  (∀ i < 32, nlfBit i = (0x3A5C742E#32).getLsbD i ∧
    (nlfBit i = true ↔ i ∈ [1, 2, 3, 5, 10, 12, 13, 14, 18, 19, 20, 22, 25, 27, 28, 29])) ∧
  (∀ t0 t1 t2 t3 t4 : Bool, tapIndex t0 t1 t2 t3 t4 =
    t0.toNat + 2 * t1.toNat + 4 * t2.toNat + 8 * t3.toNat + 16 * t4.toNat ∧ tapIndex t0 t1 t2 t3 t4 < 32)

/-- R92, R93: the index of the forward round, and the forward round bit by bit. -/
def Obligations.ForwardRoundBits : Prop :=
  ∀ (x : Word) (k : Bool),
    (∀ i, i ≤ 30 → (encRound x k).getLsbD i = x.getLsbD (i + 1)) ∧
    (encRound x k).getLsbD 31 = (x.getLsbD 0 ^^ x.getLsbD 16 ^^ (0x3A5C742E#32).getLsbD (idxF x) ^^ k) ∧
    idxF x = (x.getLsbD 1).toNat + 2 * (x.getLsbD 9).toNat + 4 * (x.getLsbD 20).toNat +
      8 * (x.getLsbD 26).toNat + 16 * (x.getLsbD 31).toNat ∧ idxF x < 32

/-- R96, R97: the index of the inverse round, and the inverse round bit by bit. -/
def Obligations.InverseRoundBits : Prop :=
  ∀ (x : Word) (k : Bool),
    (∀ i, 1 ≤ i → i ≤ 31 → (decRound x k).getLsbD i = x.getLsbD (i - 1)) ∧
    (decRound x k).getLsbD 0 = (x.getLsbD 31 ^^ x.getLsbD 15 ^^ (0x3A5C742E#32).getLsbD (idxD x) ^^ k) ∧
    idxD x = (x.getLsbD 0).toNat + 2 * (x.getLsbD 8).toNat + 4 * (x.getLsbD 19).toNat +
      8 * (x.getLsbD 25).toNat + 16 * (x.getLsbD 30).toNat ∧ idxD x < 32

/-- R99: one inverse round undoes one forward round with the same key bit, and conversely. -/
def Obligations.RoundsUndoEachOther : Prop :=
  ∀ (x : Word) (k : Bool), decRound (encRound x k) k = x ∧ encRound (decRound x k) k = x

/-- R91, R95, R100: the key-bit indices: the forward one is `r mod 64`; the inverse one is in 0..63, leaves `15 - r` a
multiple of 64 away, equals the low six bits of `15 - r` in two's complement, and is the forward one of round `527 - r`; and
round `r` of each transform consumes the key bit at its index. -/
def Obligations.KeyScheduleReversed : Prop :=
  (∀ r, kf r = r % 64) ∧
  (∀ r, kd r < 64 ∧ ∃ z : Int, 15 - (r : Int) = kd r + 64 * z) ∧
  (∀ r, kd r = ((15#10 - BitVec.ofNat 10 r) &&& 63#10).toNat) ∧
  (∀ r ≤ 527, kd r = kf (527 - r)) ∧
  (∀ (hi lo x : Word) (r : Nat), encRounds hi lo (r + 1) x = encRound (encRounds hi lo r x) (keyBit hi lo (kf r)) ∧
    decRounds hi lo (r + 1) x = decRound (decRounds hi lo r x) (keyBit hi lo (kd r)))

/-- 10_state.md R21: the key-bit selector reads bit `j` of the 64-bit key `{KEYHI, KEYLO}`, whose value is
`KEYHI · 2^32 + KEYLO`; the view follows every write of the halves. -/
def Obligations.KeyBitReadsKeyView : Prop :=
  (∀ (s : State) (j : Nat), j < 64 → keyBit s.keyHi s.keyLo j = s.key.getLsbD j) ∧
  (∀ s : State, s.key.toNat = s.keyHi.toNat * 2 ^ 32 + s.keyLo.toNat) ∧
  (∀ (s : State) (hi lo : Word), (s.writeKey hi lo).key = hi ++ lo)

/-- 41_cipher_round_engine.md R101: in one transform key bit `j` is used nine times for `j ≤ 15` and eight times for
`16 ≤ j ≤ 63`, in either direction; the last forward and the first inverse round use bit 15, the first forward and the last
inverse round bit 0. -/
def Obligations.KeyBitUsageCounts : Prop :=
  (kf 527 = 15 ∧ kd 0 = 15 ∧ kf 0 = 0 ∧ kd 527 = 0) ∧
  ∀ j < 64, (List.range 528).countP (fun r : Nat => kf r = j) = (if j ≤ 15 then 9 else 8) ∧
    (List.range 528).countP (fun r : Nat => kd r = j) = (if j ≤ 15 then 9 else 8)

/-- R102, the round-trip law, "the primary correctness property of the whole system": in every state, DECRYPT of what
ENCRYPT returned returns the plaintext, and ENCRYPT of what DECRYPT returned the ciphertext. -/
def Obligations.CipherRoundTrip : Prop :=
  ∀ (s : State) (x : Word),
    (∃ q t u, exec (.encrypt x) s = .next t ∧ t.rsp = some (.data q) ∧
      exec (.decrypt q) t = .next u ∧ u.rsp = some (.data x)) ∧
    (∃ q t u, exec (.decrypt x) s = .next t ∧ t.rsp = some (.data q) ∧
      exec (.encrypt q) t = .next u ∧ u.rsp = some (.data x))

/-- R103: for each key both transforms are bijections of the words, each the inverse of the other. -/
def Obligations.TransformsAreBijections : Prop :=
  ∀ hi lo : Word, Function.Bijective (encryptWord hi lo) ∧ Function.Bijective (decryptWord hi lo) ∧
    Function.LeftInverse (decryptWord hi lo) (encryptWord hi lo) ∧
    Function.RightInverse (decryptWord hi lo) (encryptWord hi lo)

/-- The fixed points of R94 and R98: after any number of rounds the zero word under the zero key is zero, and the all-ones
word under the all-ones key is all ones. -/
def Obligations.FixedPointsOfRounds : Prop :=
  ∀ n : Nat, encRounds 0#32 0#32 n 0#32 = 0#32 ∧ decRounds 0#32 0#32 n 0#32 = 0#32 ∧
    encRounds 0xFFFFFFFF#32 0xFFFFFFFF#32 n 0xFFFFFFFF#32 = 0xFFFFFFFF#32 ∧
    decRounds 0xFFFFFFFF#32 0xFFFFFFFF#32 n 0xFFFFFFFF#32 = 0xFFFFFFFF#32

/-- The examples of R94, R98 and R111: the words ENCRYPT and DECRYPT return, and the key NORMLEARN leaves, under the key
`5CEC6701:B79FD949`, whatever else the state holds; a second NORMLEARN derives from the derived key (R113). -/
def Obligations.WorkedExamples : Prop :=
  ∀ s : State, s.keyHi = 0x5CEC6701#32 → s.keyLo = 0xB79FD949#32 →
    (∃ t, exec (.encrypt 0xF741E2DB#32) s = .next t ∧ t.rsp = some (.data 0xE44F4CDF#32)) ∧
    (∃ t, exec (.decrypt 0xE44F4CDF#32) s = .next t ∧ t.rsp = some (.data 0xF741E2DB#32)) ∧
    (∃ t, exec (.normlearn 0x01234567#32) s = .next t ∧ t.arch = (0xAFDBD92D#32, 0x0AF0176C#32)) ∧
    (∃ t, runCommands [.normlearn 0x01234567#32, .normlearn 0x01234567#32] s = .next (t, [.void, .void]) ∧
      t.arch = (0x9558EADC#32, 0xEB611242#32))

/-! ### NORMLEARN -/

/-- 42_key_derivation.md R110: the two seeds, bit by bit; they differ in bit 30 only; bits 31..28 of the serial have no
effect. -/
def Obligations.SeedBits : Prop :=
  (∀ (a : Word) (i : Nat), i < 28 → (seedLo a).getLsbD i = a.getLsbD i ∧ (seedHi a).getLsbD i = a.getLsbD i) ∧
  (∀ a : Word, (seedLo a).extractLsb' 28 4 = 0b0010#4 ∧ (seedHi a).extractLsb' 28 4 = 0b0110#4) ∧
  (∀ a : Word, seedHi a = seedLo a ||| 0x40000000#32 ∧ seedHi a ≠ seedLo a) ∧
  (∀ a b : Word, (∀ i < 28, a.getLsbD i = b.getLsbD i) → seedLo a = seedLo b ∧ seedHi a = seedHi b)

/-- R111, R112: the encoding of NORMLEARN; it decrypts both seeds under the key at its start and replaces both halves, from
every state and for every serial; no result. -/
def Obligations.NormlearnDerivesFromOldKey : Prop :=
  (∀ a b : Word, decode (0b100#3 ++ a ++ b) = .ok (.normlearn a) ∧ encode (.normlearn a) = 0b100#3 ++ a ++ 0#32) ∧
  ∀ (a : Word) (s : State), ∃ t, exec (.normlearn a) s = .next t ∧
    t.keyLo = decryptWord s.keyHi s.keyLo ((a &&& 0x0FFFFFFF#32) ||| 0x20000000#32) ∧
    t.keyHi = decryptWord s.keyHi s.keyLo ((a &&& 0x0FFFFFFF#32) ||| 0x60000000#32) ∧
    t.rsp = some .void ∧ t.rspQ = none ∧ t.busy = false ∧ t.host = s.host

/-- R113: the derived halves are never equal, and they depend on the old key and the serial only. -/
def Obligations.DerivedHalvesDiffer : Prop :=
  ∀ (a : Word) (s s' : State), s.arch = s'.arch → ∃ t t', exec (.normlearn a) s = .next t ∧
    exec (.normlearn a) s' = .next t' ∧ t.arch = t'.arch ∧ t.keyHi ≠ t.keyLo

/-- R114: serials that agree in bits 27..0 are the same command in effect: the same outcome, whole. -/
def Obligations.SerialTopBitsIgnored : Prop :=
  ∀ (a b : Word) (s : State), a &&& 0x0FFFFFFF#32 = b &&& 0x0FFFFFFF#32 →
    exec (.normlearn a) s = exec (.normlearn b) s

/-! ### REFLECTPACK -/

/-- 43_bit_reversal.md R120: the encoding of REFLECTPACK; the result is the operand with its 32 bits in reverse order, the
same in every state; the key is left alone. -/
def Obligations.ReflectpackReversesBits : Prop :=
  (∀ a b : Word, decode (0b101#3 ++ a ++ b) = .ok (.reflectpack a) ∧
    encode (.reflectpack a) = 0b101#3 ++ a ++ 0#32) ∧
  ∀ (a : Word) (s : State), ∃ t q, exec (.reflectpack a) s = .next t ∧ t.rsp = some (.data q) ∧
    (∀ i < 32, q.getLsbD i = a.getLsbD (31 - i)) ∧ t.arch = s.arch ∧ t.busy = false ∧ t.host = s.host

/-- R121: after `n` of the source's iterations the accumulator, started at 0, holds bits `0..n-1` of the operand reversed and
the source word has lost them; after 32 it holds the closed form and the source word is 0. -/
def Obligations.ReflectIterationComputesReversal : Prop :=
  (∀ (a : Word) (n : Nat), n ≤ 32 →
    (∀ j, (reflectIter (0#32) a n).1.getLsbD j = (decide (j < n) && a.getLsbD (n - 1 - j))) ∧
    (reflectIter (0#32) a n).2 = a >>> n) ∧
  (∀ a : Word, reflectIter (0#32) a 32 = (reflectWord a, 0#32))

/-- R122: in an accumulator of any width from 32 bits up and with any starting value, the low 32 bits after the 32
iterations are the reversed word; started at 0 the accumulator stays below `2^n` after `n` iterations; and OR, XOR and
addition inject the bit alike. -/
def Obligations.ReflectAccumulatorIsFree : Prop :=
  (∀ (w : Nat) (acc : BitVec w) (a : Word), 32 ≤ w → trunc32 (reflectIter acc a 32).1 = reflectWord a) ∧
  (∀ (w : Nat) (a : Word) (n : Nat), (reflectIter (0#w) a n).1.toNat < 2 ^ n) ∧
  (∀ (w : Nat) (acc : BitVec w) (b : Bool),
    (acc <<< 1) ||| (BitVec.ofBool b).setWidth w = (acc <<< 1) ^^^ (BitVec.ofBool b).setWidth w ∧
    (acc <<< 1) ||| (BitVec.ofBool b).setWidth w = (acc <<< 1) + (BitVec.ofBool b).setWidth w)

/-- R123: the laws of the reversal: an involution, its values at 0, all ones, 1 and every power of two, its commuting with
XOR, OR, AND and, turned round, with a shift, and the number of one bits preserved. -/
def Obligations.ReflectLaws : Prop :=
  (∀ w : Word, reflectWord (reflectWord w) = w) ∧
  reflectWord 0#32 = 0#32 ∧ reflectWord 0xFFFFFFFF#32 = 0xFFFFFFFF#32 ∧ reflectWord 1#32 = 0x80000000#32 ∧
  (∀ i ≤ 31, reflectWord (1#32 <<< i) = 1#32 <<< (31 - i)) ∧
  (∀ u v : Word, reflectWord (u ^^^ v) = reflectWord u ^^^ reflectWord v ∧
    reflectWord (u ||| v) = reflectWord u ||| reflectWord v ∧
    reflectWord (u &&& v) = reflectWord u &&& reflectWord v) ∧
  (∀ w : Word, reflectWord (w >>> 1) = reflectWord w <<< 1) ∧
  (∀ w : Word, (List.range 32).countP (reflectWord w).getLsbD = (List.range 32).countP w.getLsbD)

/-! ### Frames, persistence, repetition -/

/-- What each command leaves of the hidden registers: those its sequencing does not name. Which registers SETKEY and GETKEY
use is in part the model's own choice (log entry 4). -/
def Obligations.HiddenRegisterFrame : Prop :=
  ∀ s : State,
    (∀ hi lo t, exec (.setkey hi lo) s = .next t → t.regR = s.regR ∧ t.regS = s.regS ∧ t.pass = s.pass) ∧
    (∀ sel t, exec (.getkey sel) s = .next t →
      t.regR = s.regR ∧ t.regT = s.regT ∧ t.regS = s.regS ∧ t.pass = s.pass) ∧
    (∀ x t, exec (.encrypt x) s = .next t → t.regT = s.regT ∧ t.regS = s.regS ∧ t.pass = s.pass) ∧
    (∀ x t, exec (.decrypt x) s = .next t → t.regT = s.regT ∧ t.regS = s.regS ∧ t.pass = s.pass) ∧
    (∀ x t, exec (.reflectpack x) s = .next t → t.regS = s.regS ∧ t.pass = s.pass) ∧
    (∀ i t, exec i s = .next t → t.opl = opcodeOf i)

/-- 10_state.md R32: the key persists across any number of steps whose moves hold no SETKEY, no NORMLEARN and no reset, and
the run completes. The list of moves is the model's own (log entry 3). -/
def Obligations.KeyPersists : Prop :=
  ∀ (n : Nat) (s : State), s.busy = false →
    (∀ m ∈ s.host, m.allowed = true ∧ m.writesKey = false) →
    ∃ t rs, runSteps n s = .next (t, rs) ∧ t.arch = s.arch

/-- 20_memory.md R45: no read has a side effect; the five other commands, repeated with the same operands, give the same
result and the same key; NORMLEARN derives again, from the key its first execution left, and is not idempotent. -/
def Obligations.CommandsAreIdempotent : Prop :=
  (∀ (i : Instr) (s : State), ∃ t u, exec i s = .next t ∧ exec i t = .next u ∧
    (commandWritesKey i = false → t.arch = s.arch) ∧
    ((∀ serial, i ≠ .normlearn serial) → u.rsp = t.rsp ∧ u.arch = t.arch)) ∧
  (∀ (serial : Word) (s : State), ∃ t u, exec (.normlearn serial) s = .next t ∧ exec (.normlearn serial) t = .next u ∧
    u.keyHi = decryptWord t.keyHi t.keyLo (seedHi serial) ∧ u.keyLo = decryptWord t.keyHi t.keyLo (seedLo serial)) ∧
  (∃ (s : State) (serial : Word) (t u : State), exec (.normlearn serial) s = .next t ∧
    exec (.normlearn serial) t = .next u ∧ u.arch ≠ t.arch)

/-- 20_memory.md R52: a command that writes no key, served before another caller's command, changes neither that command's
result nor the key it leaves. -/
def Obligations.PureCommandsInterleaveFreely : Prop :=
  ∀ (i j : Instr) (s : State), commandWritesKey i = false →
    ∃ t u v, exec i s = .next t ∧ exec j t = .next u ∧ exec j s = .next v ∧ u.rsp = v.rsp ∧ u.arch = v.arch

/-- 10_state.md R33, 60_exceptions.md R141: a step of one instance is that engine's own step and changes no other; steps of
two instances commute. That instances step one at a time is log entry 13. -/
def Obligations.InstancesShareNothing : Prop :=
  (∀ (n : Nat) (k : Fin n) (es fs : Vector State n), stepInstance k es = .next fs →
    step es[k] = .next fs[k] ∧ ∀ j : Fin n, j ≠ k → fs[j] = es[j]) ∧
  (∀ (n : Nat) (j k : Fin n) (es fs gs : Vector State n), j ≠ k → stepInstance j es = .next fs →
    stepInstance k fs = .next gs → ∃ hs, stepInstance k es = .next hs ∧ stepInstance j hs = .next gs)

/-- 10_state.md R28: hidden registers carry nothing from one command to the next: two idle states alike in all else give the
same responses and stay alike over any number of steps, and look alike over any clock edges. -/
def Obligations.HiddenStateCarriesNothing : Prop :=
  ∀ s t : State, s.SameButHidden t → s.busy = false →
    (∀ n, Alike (fun a b => a.1.SameButHidden b.1 ∧ a.2 = b.2) (runSteps n s) (runSteps n t)) ∧
    (∀ ps, Alike (fun a b => a.view = b.view) (edges ps s) (edges ps t))

/-! ### Reset -/

/-- 10_state.md R30: after reset both halves of the key are zero. -/
def Obligations.ResetKeyIsZero : Prop :=
  State.reset.keyHi = 0x00000000#32 ∧ State.reset.keyLo = 0x00000000#32 ∧ core.reset = State.reset

/-- 70_reset_and_hazards.md R151: the effect of a reset edge, from any state, busy or not, and whatever the command port
shows: zero key, idle, no response, and the same from any two states whose host has the same moves to come, but for the
hidden registers, which the rule leaves unspecified. That a reset leaves the host's coming moves is log entry 12. -/
def Obligations.ResetEdgeEffect : Prop :=
  (∀ (p : Pins) (s : State), p.rst = true → ∃ t, edge p s = .next t ∧ t.keyHi = 0#32 ∧ t.keyLo = 0#32 ∧
    t.busy = false ∧ t.rspValid = false ∧ s.cmdReady p.rst = false ∧ t.cmdReady false = true ∧ t.host = s.host) ∧
  (∀ (p q : Pins) (s t : State), p.rst = true → q.rst = true → s.host = t.host →
    ∃ u v, edge p s = .next u ∧ edge q t = .next v ∧ u.SameButHidden v)

/-- R152: a reset edge after a command was accepted, up to and including its completing edge, abandons it: until then the key
is unchanged and no response was given, and the edge leaves the zero key, an idle engine and no response. A command
presented at a reset edge is not accepted. That a reset leaves the host's coming moves is log entry 12. -/
def Obligations.ResetAbandonsCommand : Prop :=
  ∀ (s : State) (w : CommandWord) (i : Instr) (ps : List Pins) (r : Pins),
    s.busy = false → decode w = .ok i → (∀ p ∈ ps, p.rst = false) → ps.length < Config.refLat (opcodeOf i) →
    r.rst = true →
      (∃ u, edges (Pins.present w :: ps) s = .next u ∧ u.busy = true ∧ u.rsp = none ∧ u.arch = s.arch) ∧
      (∃ v, edges (Pins.present w :: ps ++ [r]) s = .next v ∧
        v.arch = (0#32, 0#32) ∧ v.busy = false ∧ v.rsp = none ∧ v.host = s.host) ∧
      (∃ v, edge { Pins.present w with rst := true } s = .next v ∧
        v.arch = (0#32, 0#32) ∧ v.busy = false ∧ v.rsp = none ∧ v.host = s.host)

/-- R156: directly after reset ENCRYPT, DECRYPT and NORMLEARN are legal and compute with the zero key; the rule's own
examples. -/
def Obligations.CommandsOnResetKey : Prop :=
  (∀ x : Word,
    (∃ t, exec (.encrypt x) State.reset = .next t ∧ t.rsp = some (.data (encryptWord 0#32 0#32 x))) ∧
    (∃ t, exec (.decrypt x) State.reset = .next t ∧ t.rsp = some (.data (decryptWord 0#32 0#32 x))) ∧
    (∃ t, exec (.normlearn x) State.reset = .next t ∧ t.keyHi = decryptWord 0#32 0#32 (seedHi x) ∧
      t.keyLo = decryptWord 0#32 0#32 (seedLo x))) ∧
  (∃ t, exec (.encrypt 0x00000001#32) State.reset = .next t ∧ t.rsp = some (.data 0x2F197B2E#32)) ∧
  (∃ t, exec (.normlearn 0x00000000#32) State.reset = .next t ∧
    t.keyHi = 0x183DBA7E#32 ∧ t.keyLo = 0xBC54A53A#32)

/-! ### The clock level -/

/-- The reference hardware refines the command-level step (R106, R115, R125, R164; 92_eei_decisions.md D1): from an idle
engine, the accepting edge and exactly `LAT` further edges, whatever the command port shows at them, leave the very state
that the command's meaning gives. The end values of hidden registers in it are log entry 4. -/
def Obligations.ReferenceRefinesCommand : Prop :=
  ∀ (s : State) (w : CommandWord) (i : Instr) (ps : List Pins),
    s.busy = false → decode w = .ok i → (∀ p ∈ ps, p.rst = false) → ps.length = Config.refLat (opcodeOf i) →
    edges (Pins.present w :: ps) s = exec i s

/-- 20_memory.md R48, for any latency: the accepted command completes exactly `LAT` edges after its accepting edge, with its
whole effect, and at no edge before is there a response, a change of the key, or readiness. -/
def Obligations.HandshakeCompletesAfterLatency : Prop :=
  ∀ (lat : Opcode → Nat) (s : State) (w : CommandWord) (i : Instr) (ps : List Pins),
    decode w = .ok i → 0 < lat (opcodeOf i) → (∀ p ∈ ps, p.rst = false) →
    (ps.length < lat (opcodeOf i) → ∃ m, Port.edges lat (Pins.present w :: ps) (Port.idle s) = .next m ∧
      m.view = ⟨false, none, s.keyHi, s.keyLo⟩) ∧
    (ps.length = lat (opcodeOf i) → ∃ t m, exec i s = .next t ∧
      Port.edges lat (Pins.present w :: ps) (Port.idle s) = .next m ∧ m.view = ⟨true, t.rsp, t.keyHi, t.keyLo⟩)

/-- The reference hardware is an implementation of the handshake with the reference latencies: over any sequence of edges,
with any commands and any resets, both look alike from outside, and one stops exactly when the other does. -/
def Obligations.ReferenceMeetsHandshake : Prop :=
  ∀ (ps : List Pins) (s : State), s.busy = false →
    (∀ t, edges ps s = .next t →
      ∃ m, Port.edges Config.refLat ps (Port.idle s) = .next m ∧ m.view = t.view) ∧
    (∀ r, edges ps s = .refused r ↔ Port.edges Config.refLat ps (Port.idle s) = .refused r)

/-- 20_memory.md R48: the response stands for one cycle: an edge of an idle engine, whatever it does, ends the pulse; and a
running command goes on whatever the command port shows. -/
def Obligations.ResponsePulseLastsOneCycle : Prop :=
  (∀ (p : Pins) (s t : State), s.busy = false → edge p s = .next t → t.rspValid = false) ∧
  (∀ (p q : Pins) (s : State), s.busy = true → p.rst = false → q.rst = false → edge p s = edge q s)

/-- 20_memory.md R44, 60_exceptions.md R137: an edge changes the key only by reset, or as the completing edge of SETKEY or
NORMLEARN, which gives the response without data and leaves the engine idle; every other edge leaves both halves. -/
def Obligations.KeyWrittenOnlyAtCompletion : Prop :=
  ∀ (p : Pins) (s t : State), edge p s = .next t →
    t.arch = s.arch ∨ (p.rst = true ∧ t.arch = (0#32, 0#32)) ∨
    (s.busy = true ∧ t.busy = false ∧ t.rsp = some .void ∧ (s.opl = opSetkey ∨ s.opl = opNormlearn))

/-- 70_reset_and_hazards.md R166: an accepted command completes. From any point inside a command that clock edges reach, the
step of a host that does not reset is that command's completion, with the whole effect of its meaning. That the step then
is the completion is log entry 5; the end values of hidden registers in it are log entry 4. -/
def Obligations.CommandInProgressCompletes : Prop :=
  ∀ (s u : State) (w : CommandWord) (i : Instr) (ps : List Pins),
    s.busy = false → decode w = .ok i → (∀ p ∈ ps, p.rst = false) → ps.length < Config.refLat (opcodeOf i) →
    edges (Pins.present w :: ps) s = .next u → (∀ ms, s.host ≠ .reset :: ms) → step u = exec i s

/-- 20_memory.md R50, 93_implementation_defined.md U1, U6: the check of the host's duties refuses a reserved opcode
whenever it is presented, and a command changed from one edge to the next while it was presented and not accepted, at
whatever point of a host's edges; a host that keeps to its duties is not refused: its edges are the engine's own, and they
answer a next state where a running command is one of the six, as the invariant says; and the check does nothing but refuse.
How far the check reaches is the model's choice (log entries 6 and 7). -/
def Obligations.HostDutiesOnlyRefuse : Prop :=
  (∀ (p : Pins) (offered : Option CommandWord) (s : State), p.cmdValid = true → p.cmdOp = 6#3 ∨ p.cmdOp = 7#3 →
    hostEdge offered p s = .refused (.reservedOpcode p.cmdOp)) ∧
  (∀ (p : Pins) (v : CommandWord) (s : State), p.cmdValid = true → (fieldsOf p.word).assigned = true → v ≠ p.word →
    hostEdge (some v) p s = .refused .unstableCommand) ∧
  (∀ (qs ps : List Pins) (p : Pins) (s u : State), HostLawful none qs s → edges qs s = .next u →
    p.cmdValid = true → p.cmdOp = 6#3 ∨ p.cmdOp = 7#3 →
    hostEdges none (qs ++ p :: ps) s = .refused (.reservedOpcode p.cmdOp)) ∧
  (∀ (qs ps : List Pins) (p q : Pins) (s u t : State), HostLawful none (qs ++ [p]) s → edges qs s = .next u →
    edge p u = .next t → p.cmdValid = true → u.cmdReady p.rst = false →
    q.cmdValid = true → (fieldsOf q.word).assigned = true → q.word ≠ p.word →
    hostEdges none (qs ++ p :: q :: ps) s = .refused .unstableCommand) ∧
  (∀ (ps : List Pins) (s : State), HostLawful none ps s → hostEdges none ps s = edges ps s ∧
    ((s.busy = true → s.opl.toNat ≤ 5) → ∃ t, edges ps s = .next t)) ∧
  (∀ (ps : List Pins) (offered : Option CommandWord) (s t : State), hostEdges offered ps s = .next t →
    edges ps s = .next t)

/-! ### The invariant -/

/-- The invariant holds at reset; that the round counter is in its range there is log entry 1. -/
def Obligations.InvariantAtReset : Prop := State.reset.Inv

/-- Every clock edge keeps the invariant: the round counter in its range, a running command in flight as its sequencing
says, the response the one its opcode gives, the halves just derived unequal. What is kept of the hidden registers after a
command is log entry 4; that the round counter is in range after a reset edge is log entry 1. -/
def Obligations.EdgeKeepsInvariant : Prop :=
  ∀ (p : Pins) (s t : State), s.Inv → edge p s = .next t → t.Inv

/-- Every step keeps the invariant, from every state that meets it, idle or with a command in progress; and the step leaves
the engine idle. What a step does on a busy engine is log entry 5; what is kept of the hidden registers after a command is
log entry 4; that the round counter is in range after a reset is log entry 1. -/
def Obligations.StepKeepsInvariant : Prop :=
  ∀ s t : State, s.Inv → step s = .next t → t.Inv ∧ t.busy = false
end

