-- ==== Sys2Proof/Laws/Cipher.lean ====
section
/-! SUPPORT. The small lemmas of the operand forms and of the cipher: what each does to a bit, and its unfolding equations. -/
namespace Sys2Proof.Machine

/-! ### a bit as a word -/

@[simp] theorem getLsbD_bitWord (b : Bool) (i : Nat) : (bitWord b).getLsbD i = (decide (i = 0) && b) := by
  cases b <;> simp [bitWord]

@[simp] theorem getElem_bitWord (b : Bool) (i : Nat) (h : i < 32) : (bitWord b)[i] = (decide (i = 0) && b) := by
  rw [← BitVec.getLsbD_eq_getElem]
  exact getLsbD_bitWord b i

/-! ### the Euclidean remainder -/

theorem emod_eq (a : Int) (n : Nat) : emod a n = (a % (n : Int)).toNat := rfl

/-- R9: `0 ≤ emod a n < n` for a positive `n`. -/
theorem emod_lt (a : Int) {n : Nat} (hn : 0 < n) : emod a n < n := by
  have h1 := Int.emod_nonneg a (show (n : Int) ≠ 0 by omega)
  have h2 := Int.emod_lt_of_pos a (show (0 : Int) < n by omega)
  rw [emod_eq]
  omega

/-- R9: `a - emod a n` is a multiple of `n`. -/
theorem emod_spec (a : Int) {n : Nat} (hn : 0 < n) : a = emod a n + n * (a / n) := by
  have h1 := Int.emod_nonneg a (show (n : Int) ≠ 0 by omega)
  rw [emod_eq, Int.toNat_of_nonneg h1]
  exact (Int.emod_add_mul_ediv a n).symm

/-! ### the seeds -/

theorem getLsbD_serial28 (a : Word) (i : Nat) : (serial28 a).getLsbD i = (decide (i < 28) && a.getLsbD i) := by
  have mask : ∀ i < 32, serialMask.getLsbD i = decide (i < 28) := by decide
  rcases Nat.lt_or_ge i 32 with h | h
  · rw [serial28, BitVec.getLsbD_and, mask i h, Bool.and_comm]
  · rw [BitVec.getLsbD_of_ge _ _ h]
    simp
    omega

/-- The low seed is `0b0010` above the latched serial field (42_key_derivation.md R115). -/
theorem seedLo_eq_append (a : Word) : seedLo a = 0b0010#4 ++ serialField a := by
  apply BitVec.eq_of_getLsbD_eq
  intro i hi
  have c : ∀ i < 32, seedLoConst.getLsbD i = (decide (28 ≤ i) && (0b0010#4).getLsbD (i - 28)) := by decide
  rw [seedLo, BitVec.getLsbD_or, getLsbD_serial28, c i hi, BitVec.getLsbD_append, serialField,
    BitVec.getLsbD_extractLsb']
  by_cases h : i < 28 <;> simp [h]
  omega

/-- The high seed is `0b0110` above the latched serial field (R115). -/
theorem seedHi_eq_append (a : Word) : seedHi a = 0b0110#4 ++ serialField a := by
  apply BitVec.eq_of_getLsbD_eq
  intro i hi
  have c : ∀ i < 32, seedHiConst.getLsbD i = (decide (28 ≤ i) && (0b0110#4).getLsbD (i - 28)) := by decide
  rw [seedHi, BitVec.getLsbD_or, getLsbD_serial28, c i hi, BitVec.getLsbD_append, serialField,
    BitVec.getLsbD_extractLsb']
  by_cases h : i < 28 <;> simp [h]
  omega

/-! ### the transforms, round by round -/

@[simp] theorem encRounds_zero (hi lo x : Word) : encRounds hi lo 0 x = x := rfl

@[simp] theorem decRounds_zero (hi lo x : Word) : decRounds hi lo 0 x = x := rfl

theorem encRounds_succ (hi lo : Word) (n : Nat) (x : Word) :
    encRounds hi lo (n + 1) x = encRound (encRounds hi lo n x) (keyBit hi lo (kf n)) := rfl

theorem decRounds_succ (hi lo : Word) (n : Nat) (x : Word) :
    decRounds hi lo (n + 1) x = decRound (decRounds hi lo n x) (keyBit hi lo (kd n)) := rfl

theorem encryptWord_eq (hi lo p : Word) : encryptWord hi lo p = encRounds hi lo 528 p := rfl

theorem decryptWord_eq (hi lo c : Word) : decryptWord hi lo c = decRounds hi lo 528 c := rfl

/-! ### the reversal -/

@[simp] theorem getLsbD_reflectWord (a : Word) (i : Nat) :
    (reflectWord a).getLsbD i = (decide (i < 32) && a.getLsbD (31 - i)) := by
  by_cases h : i < 32 <;> simp [reflectWord, BitVec.getLsbD_ofFnLE, h]

@[simp] theorem getElem_reflectWord (a : Word) (i : Nat) (h : i < 32) : (reflectWord a)[i] = a.getLsbD (31 - i) := by
  rw [← BitVec.getLsbD_eq_getElem, getLsbD_reflectWord]
  simp [h]

theorem reflectIter_succ {w : Nat} (acc : BitVec w) (a : Word) (n : Nat) :
    reflectIter acc a (n + 1) =
      (((reflectIter acc a n).1 <<< 1) ||| (BitVec.ofBool ((reflectIter acc a n).2.getLsbD 0)).setWidth w,
        (reflectIter acc a n).2 >>> 1) := rfl

end Sys2Proof.Machine
end

