-- ==== Sys2Proof/Laws/Decode.lean ====
section
/-! SUPPORT. The fields of a command word and the word of three fields undo each other, and what the decoder answers. -/
namespace Sys2Proof

@[simp] theorem opOf_wordOf (c : RawCommand) : opOf (wordOf c) = c.op := by
  ext i hi
  simp only [opOf, wordOf, BitVec.getElem_extractLsb', BitVec.getLsbD_append]
  simp [show ¬ 64 + i < 32 by omega, show ¬ 64 + i - 32 < 32 by omega, show 64 + i - 32 - 32 = i by omega,
    BitVec.getLsbD_eq_getElem hi]

@[simp] theorem aOf_wordOf (c : RawCommand) : aOf (wordOf c) = c.a := by
  ext i hi
  simp only [aOf, wordOf, BitVec.getElem_extractLsb', BitVec.getLsbD_append]
  simp [hi]

@[simp] theorem bOf_wordOf (c : RawCommand) : bOf (wordOf c) = c.b := by
  ext i hi
  simp only [bOf, wordOf, BitVec.getElem_extractLsb', BitVec.getLsbD_append]
  simp [hi]

@[simp] theorem fieldsOf_wordOf (c : RawCommand) : fieldsOf (wordOf c) = c := by
  simp [fieldsOf]

@[simp] theorem wordOf_fieldsOf (w : CommandWord) : wordOf (fieldsOf w) = w := by
  ext i hi
  simp only [wordOf, fieldsOf, opOf, aOf, bOf]
  rw [← BitVec.getLsbD_eq_getElem, ← BitVec.getLsbD_eq_getElem, BitVec.getLsbD_append, BitVec.getLsbD_append]
  simp only [BitVec.getLsbD_extractLsb']
  by_cases h : i < 32
  · simp [h]
  · by_cases h' : i - 32 < 32
    · simp [h, h', show 32 + (i - 32) = i by omega]
    · simp [h, h', show 64 + (i - 32 - 32) = i by omega, show i - 32 - 32 < 3 by omega]

/-- The opcode of what the decoder answers is the opcode of the word: no other bit selects the command (R62). -/
theorem opcodeOf_of_decode {w : CommandWord} {i : Instr} (h : decode w = .ok i) : opcodeOf i = opOf w := by
  have key : ∀ c : RawCommand, decodeFields c = .ok i → opcodeOf i = c.op := by
    intro c hc
    unfold decodeFields at hc
    repeat' split at hc
    all_goals first
      | (cases hc; simp_all [opcodeOf, canonicalFields])
      | cases hc
  exact key _ h

/-- A word is refused exactly when its opcode is 6 or 7, and by that name (R68). -/
theorem decode_error_iff {w : CommandWord} {e : DecodeError} :
    decode w = .error e ↔ ¬ (opOf w).toNat ≤ 5 ∧ e = .reserved (opOf w) := by
  have key : ∀ (op : Opcode) (a b : Word), decodeFields ⟨op, a, b⟩ = .error e ↔ ¬ op.toNat ≤ 5 ∧ e = .reserved op := by
    intro op a b
    have : ∀ op : Opcode, op = 0#3 ∨ op = 1#3 ∨ op = 2#3 ∨ op = 3#3 ∨ op = 4#3 ∨ op = 5#3 ∨ op = 6#3 ∨ op = 7#3 := by
      decide
    rcases this op with h | h | h | h | h | h | h | h <;> subst h <;>
      simp [decodeFields, opSetkey, opGetkey, opEncrypt, opDecrypt, opNormlearn, opReflectpack, eq_comm]
  exact key _ _ _

/-- A word with an assigned opcode decodes (R66). -/
theorem decode_ok_of_assigned {w : CommandWord} (h : (fieldsOf w).assigned = true) : ∃ i, decode w = .ok i := by
  cases hd : decode w with
  | ok i => exact ⟨i, rfl⟩
  | error e =>
    exact absurd (of_decide_eq_true h) (decode_error_iff.mp hd).1

/-- What decodes has an assigned opcode. -/
theorem assigned_of_decode {w : CommandWord} {i : Instr} (h : decode w = .ok i) : (fieldsOf w).assigned = true := by
  by_contra hn
  have : decode w = .error (.reserved (opOf w)) :=
    decode_error_iff.mpr ⟨fun hle => hn (decide_eq_true hle), rfl⟩
  rw [this] at h
  cases h

theorem decodeTableWord_eq_some {nbits w : Nat} {i : Instr} :
    decodeTableWord nbits w = some i ↔ decode (tableWord nbits w) = .ok i := by
  unfold decodeTableWord
  split <;> simp_all

end Sys2Proof
end

