-- ==== Sys2Proof/Laws/State.lean ====
section
/-! SUPPORT. One lemma per field per update of the state, true by definition, so that no later proof unfolds an update. -/
namespace Sys2Proof.Machine

variable (s : State)


/-! ### `writeKey` -/

@[simp] theorem State.writeKey_keyHi (hi lo : Word) : (s.writeKey hi lo).keyHi = hi := rfl
@[simp] theorem State.writeKey_keyLo (hi lo : Word) : (s.writeKey hi lo).keyLo = lo := rfl
@[simp] theorem State.writeKey_regX (hi lo : Word) : (s.writeKey hi lo).regX = s.regX := rfl
@[simp] theorem State.writeKey_regR (hi lo : Word) : (s.writeKey hi lo).regR = s.regR := rfl
@[simp] theorem State.writeKey_regT (hi lo : Word) : (s.writeKey hi lo).regT = s.regT := rfl
@[simp] theorem State.writeKey_regS (hi lo : Word) : (s.writeKey hi lo).regS = s.regS := rfl
@[simp] theorem State.writeKey_opl (hi lo : Word) : (s.writeKey hi lo).opl = s.opl := rfl
@[simp] theorem State.writeKey_pass (hi lo : Word) : (s.writeKey hi lo).pass = s.pass := rfl
@[simp] theorem State.writeKey_busy (hi lo : Word) : (s.writeKey hi lo).busy = s.busy := rfl
@[simp] theorem State.writeKey_rsp (hi lo : Word) : (s.writeKey hi lo).rsp = s.rsp := rfl
@[simp] theorem State.writeKey_host (hi lo : Word) : (s.writeKey hi lo).host = s.host := rfl

/-! ### `complete` -/

@[simp] theorem State.complete_keyHi (op : Opcode) (rsp : Response) : (s.complete op rsp).keyHi = s.keyHi := rfl
@[simp] theorem State.complete_keyLo (op : Opcode) (rsp : Response) : (s.complete op rsp).keyLo = s.keyLo := rfl
@[simp] theorem State.complete_regX (op : Opcode) (rsp : Response) : (s.complete op rsp).regX = s.regX := rfl
@[simp] theorem State.complete_regR (op : Opcode) (rsp : Response) : (s.complete op rsp).regR = s.regR := rfl
@[simp] theorem State.complete_regT (op : Opcode) (rsp : Response) : (s.complete op rsp).regT = s.regT := rfl
@[simp] theorem State.complete_regS (op : Opcode) (rsp : Response) : (s.complete op rsp).regS = s.regS := rfl
@[simp] theorem State.complete_opl (op : Opcode) (rsp : Response) : (s.complete op rsp).opl = op := rfl
@[simp] theorem State.complete_pass (op : Opcode) (rsp : Response) : (s.complete op rsp).pass = s.pass := rfl
@[simp] theorem State.complete_busy (op : Opcode) (rsp : Response) : (s.complete op rsp).busy = false := rfl
@[simp] theorem State.complete_rsp (op : Opcode) (rsp : Response) : (s.complete op rsp).rsp = some rsp := rfl
@[simp] theorem State.complete_host (op : Opcode) (rsp : Response) : (s.complete op rsp).host = s.host := rfl

/-! ### `quiet` -/

@[simp] theorem State.quiet_keyHi : (s.quiet).keyHi = s.keyHi := rfl
@[simp] theorem State.quiet_keyLo : (s.quiet).keyLo = s.keyLo := rfl
@[simp] theorem State.quiet_regX : (s.quiet).regX = s.regX := rfl
@[simp] theorem State.quiet_regR : (s.quiet).regR = s.regR := rfl
@[simp] theorem State.quiet_regT : (s.quiet).regT = s.regT := rfl
@[simp] theorem State.quiet_regS : (s.quiet).regS = s.regS := rfl
@[simp] theorem State.quiet_opl : (s.quiet).opl = s.opl := rfl
@[simp] theorem State.quiet_pass : (s.quiet).pass = s.pass := rfl
@[simp] theorem State.quiet_busy : (s.quiet).busy = s.busy := rfl
@[simp] theorem State.quiet_rsp : (s.quiet).rsp = none := rfl
@[simp] theorem State.quiet_host : (s.quiet).host = s.host := rfl

/-! ### `resetEdge` -/

@[simp] theorem State.resetEdge_keyHi : (s.resetEdge).keyHi = 0#32 := rfl
@[simp] theorem State.resetEdge_keyLo : (s.resetEdge).keyLo = 0#32 := rfl
@[simp] theorem State.resetEdge_regX : (s.resetEdge).regX = 0#32 := rfl
@[simp] theorem State.resetEdge_regR : (s.resetEdge).regR = 0#10 := rfl
@[simp] theorem State.resetEdge_regT : (s.resetEdge).regT = 0#32 := rfl
@[simp] theorem State.resetEdge_regS : (s.resetEdge).regS = 0#28 := rfl
@[simp] theorem State.resetEdge_opl : (s.resetEdge).opl = 0#3 := rfl
@[simp] theorem State.resetEdge_pass : (s.resetEdge).pass = false := rfl
@[simp] theorem State.resetEdge_busy : (s.resetEdge).busy = false := rfl
@[simp] theorem State.resetEdge_rsp : (s.resetEdge).rsp = none := rfl
@[simp] theorem State.resetEdge_host : (s.resetEdge).host = s.host := rfl

/-! ### `load` and `accept`: what they leave alone -/

@[simp] theorem State.load_keyHi (i : Instr) : (s.load i).keyHi = s.keyHi := by cases i <;> rfl
@[simp] theorem State.load_keyLo (i : Instr) : (s.load i).keyLo = s.keyLo := by cases i <;> rfl
@[simp] theorem State.load_opl (i : Instr) : (s.load i).opl = s.opl := by cases i <;> rfl
@[simp] theorem State.load_busy (i : Instr) : (s.load i).busy = s.busy := by cases i <;> rfl
@[simp] theorem State.load_rsp (i : Instr) : (s.load i).rsp = s.rsp := by cases i <;> rfl
@[simp] theorem State.load_host (i : Instr) : (s.load i).host = s.host := by cases i <;> rfl

@[simp] theorem State.accept_keyHi (i : Instr) : (s.accept i).keyHi = s.keyHi := by simp [State.accept]
@[simp] theorem State.accept_keyLo (i : Instr) : (s.accept i).keyLo = s.keyLo := by simp [State.accept]
@[simp] theorem State.accept_opl (i : Instr) : (s.accept i).opl = opcodeOf i := by simp [State.accept]
@[simp] theorem State.accept_busy (i : Instr) : (s.accept i).busy = true := by simp [State.accept]
@[simp] theorem State.accept_rsp (i : Instr) : (s.accept i).rsp = none := by simp [State.accept]
@[simp] theorem State.accept_host (i : Instr) : (s.accept i).host = s.host := by simp [State.accept]
@[simp] theorem State.accept_regX (i : Instr) : (s.accept i).regX = (s.load i).regX := rfl
@[simp] theorem State.accept_regR (i : Instr) : (s.accept i).regR = (s.load i).regR := rfl
@[simp] theorem State.accept_regT (i : Instr) : (s.accept i).regT = (s.load i).regT := rfl
@[simp] theorem State.accept_regS (i : Instr) : (s.accept i).regS = (s.load i).regS := rfl
@[simp] theorem State.accept_pass (i : Instr) : (s.accept i).pass = (s.load i).pass := rfl

/-! ### the port and the two views -/

theorem State.quiet_of_rsp (h : s.rsp = none) : s.quiet = s := by
  cases s
  cases h
  rfl

@[simp] theorem State.quiet_quiet : s.quiet.quiet = s.quiet := rfl

@[simp] theorem State.resetEdge_resetEdge : s.resetEdge.resetEdge = s.resetEdge := rfl

theorem State.cmdReady_eq_true (rst : Bool) : s.cmdReady rst = true ↔ s.busy = false ∧ rst = false := by
  simp [State.cmdReady]

theorem State.rspQ_eq_some (q : Word) : s.rspQ = some q ↔ s.rsp = some (.data q) := by
  unfold State.rspQ
  split <;> simp_all

end Sys2Proof.Machine
end

