-- ==== Sys2Proof/Laws/Clock.lean ====
section
/-! SUPPORT. What one clock edge can do, said once per kind of edge, and how edges compose. -/
namespace Sys2Proof.Machine

/-! ### the ports -/

@[simp] theorem Pins.word_present (w : CommandWord) : (Pins.present w).word = w := wordOf_fieldsOf w

@[simp] theorem Pins.rst_present (w : CommandWord) : (Pins.present w).rst = false := rfl

@[simp] theorem Pins.cmdValid_present (w : CommandWord) : (Pins.present w).cmdValid = true := rfl

/-! ### edges in sequence -/

@[simp] theorem edges_nil (s : State) : edges [] s = .next s := rfl

theorem edges_cons_of_next {p : Pins} {s t : State} (ps : List Pins) (h : edge p s = .next t) :
    edges (p :: ps) s = edges ps t := by
  simp only [edges, h]

theorem edges_cons_of_refused {p : Pins} {s : State} {r : Refusal} (ps : List Pins) (h : edge p s = .refused r) :
    edges (p :: ps) s = .refused r := by
  simp only [edges, h]

theorem edges_append {ps : List Pins} {s t : State} (qs : List Pins) (h : edges ps s = .next t) :
    edges (ps ++ qs) s = edges qs t := by
  induction ps generalizing s with
  | nil => cases h; rfl
  | cons p ps ih =>
    cases hp : edge p s with
    | next u =>
      rw [edges_cons_of_next _ hp] at h
      rw [List.cons_append, edges_cons_of_next _ hp, ih h]
    | fault f => cases f
    | refused r =>
      rw [edges_cons_of_refused _ hp] at h
      cases h

/-! ### the kinds of edge -/

theorem edge_reset {p : Pins} (s : State) (hp : p.rst = true) : edge p s = .next s.resetEdge := by
  simp [edge, hp]

theorem edge_busy {p : Pins} {s : State} (hp : p.rst = false) (hs : s.busy = true) : edge p s = s.work := by
  simp [edge, hp, hs]

theorem edge_idle {p : Pins} {s : State} (hp : p.rst = false) (hv : p.cmdValid = false) (hs : s.busy = false) :
    edge p s = .next s.quiet := by
  simp [edge, hp, hs, hv]

theorem edge_accept {p : Pins} {s : State} {i : Instr} (hp : p.rst = false) (hv : p.cmdValid = true)
    (hs : s.busy = false) (hd : decode p.word = .ok i) : edge p s = .next (s.accept i) := by
  simp [edge, hp, hs, hv, hd]

theorem edge_reserved {p : Pins} {s : State} {op : Opcode} (hp : p.rst = false) (hv : p.cmdValid = true)
    (hs : s.busy = false) (hd : decode p.word = .error (.reserved op)) : edge p s = .refused (.reservedOpcode op) := by
  simp [edge, hp, hs, hv, hd]

theorem edge_present {s : State} {w : CommandWord} {i : Instr} (hs : s.busy = false) (hd : decode w = .ok i) :
    edge (Pins.present w) s = .next (s.accept i) :=
  edge_accept rfl rfl hs (by rwa [Pins.word_present])

/-- All an edge can do when it answers a next state. -/
theorem edge_cases {p : Pins} {s t : State} (h : edge p s = .next t) :
    (p.rst = true ∧ t = s.resetEdge) ∨
    (p.rst = false ∧ s.busy = true ∧ s.work = .next t) ∨
    (p.rst = false ∧ s.busy = false ∧ p.cmdValid = false ∧ t = s.quiet) ∨
    (∃ i, p.rst = false ∧ s.busy = false ∧ p.cmdValid = true ∧ decode p.word = .ok i ∧ t = s.accept i) := by
  cases hr : p.rst with
  | true =>
    rw [edge_reset s hr] at h
    cases h
    exact .inl ⟨rfl, rfl⟩
  | false =>
    cases hb : s.busy with
    | true => exact .inr (.inl ⟨rfl, rfl, by rwa [edge_busy hr hb] at h⟩)
    | false =>
      cases hv : p.cmdValid with
      | false =>
        rw [edge_idle hr hv hb] at h
        cases h
        exact .inr (.inr (.inl ⟨rfl, rfl, rfl, rfl⟩))
      | true =>
        cases hd : decode p.word with
        | ok i =>
          rw [edge_accept hr hv hb hd] at h
          cases h
          exact .inr (.inr (.inr ⟨i, rfl, rfl, rfl, rfl, rfl⟩))
        | error e =>
          cases e
          rw [edge_reserved hr hv hb hd] at h
          cases h

/-! ### the host's duties -/

theorem hostEdges_cons_of_next {offered : Option CommandWord} {p : Pins} {s t : State} (ps : List Pins)
    (h : hostEdge offered p s = .next t) : hostEdges offered (p :: ps) s = hostEdges (stillOffered p s) ps t := by
  simp only [hostEdges, h]

theorem hostEdges_cons_of_refused {offered : Option CommandWord} {p : Pins} {s : State} {r : Refusal} (ps : List Pins)
    (h : hostEdge offered p s = .refused r) : hostEdges offered (p :: ps) s = .refused r := by
  simp only [hostEdges, h]

/-- An edge at which the host keeps to its duties is the engine's own. -/
theorem hostEdge_of_lawful {offered : Option CommandWord} {p : Pins} (s : State)
    (h : p.cmdValid = true → (fieldsOf p.word).assigned = true ∧ ∀ w, offered = some w → p.word = w) :
    hostEdge offered p s = edge p s := by
  unfold hostEdge
  split
  · rename_i hv
    obtain ⟨ha, hk⟩ := h hv
    obtain ⟨i, hd⟩ := decode_ok_of_assigned ha
    simp only [hd]
    refine if_pos ?_
    cases offered with
    | none => exact .inl rfl
    | some w => exact .inr (congrArg some (hk w rfl).symm)
  · rfl

/-! ### the working edges of each command -/

theorem work_setkey {s : State} (h : s.opl = opSetkey) :
    s.work = .next ((s.writeKey s.regX s.regT).complete opSetkey .void) := by
  simp [State.work, h]

theorem work_getkey {s : State} (h : s.opl = opGetkey) :
    s.work = .next (s.complete opGetkey (.data (selectHalf (s.regX.getLsbD 0) s.keyHi s.keyLo))) := by
  simp only [State.work, h]
  rfl

theorem work_encrypt {s : State} (h : s.opl = opEncrypt) : s.work = .next s.encryptEdge := by
  simp only [State.work, h]
  rfl

theorem work_decrypt {s : State} (h : s.opl = opDecrypt) : s.work = .next s.decryptEdge := by
  simp only [State.work, h]
  rfl

theorem work_normlearn {s : State} (h : s.opl = opNormlearn) : s.work = .next s.normlearnEdge := by
  simp only [State.work, h]
  rfl

theorem work_reflectpack {s : State} (h : s.opl = opReflectpack) : s.work = .next s.reflectEdge := by
  simp only [State.work, h]
  rfl

/-- All a working edge can do when it answers a next state: the edge of the command in `OPL`. -/
theorem work_cases {s t : State} (h : s.work = .next t) :
    (s.opl = opSetkey ∧ t = (s.writeKey s.regX s.regT).complete opSetkey .void) ∨
    (s.opl = opGetkey ∧ t = s.complete opGetkey (.data (selectHalf (s.regX.getLsbD 0) s.keyHi s.keyLo))) ∨
    (s.opl = opEncrypt ∧ t = s.encryptEdge) ∨ (s.opl = opDecrypt ∧ t = s.decryptEdge) ∨
    (s.opl = opNormlearn ∧ t = s.normlearnEdge) ∨ (s.opl = opReflectpack ∧ t = s.reflectEdge) := by
  unfold State.work at h
  repeat' split at h
  all_goals first
    | (cases h; simp [*])
    | cases h

theorem encryptEdge_mid {s : State} (h : s.regR ≠ 527#10) :
    s.encryptEdge = { s.quiet with
      regX := encRound s.regX (keyBit s.keyHi s.keyLo (kf s.regR.toNat)), regR := s.regR + 1#10 } := by
  simp only [State.encryptEdge, if_neg h]

theorem encryptEdge_last {s : State} (h : s.regR = 527#10) :
    s.encryptEdge =
      { s with regX := encRound s.regX (keyBit s.keyHi s.keyLo (kf 527)), regR := 528#10 }.complete opEncrypt
        (.data (encRound s.regX (keyBit s.keyHi s.keyLo (kf 527)))) := by
  simp only [State.encryptEdge, h]
  rfl

theorem decryptEdge_mid {s : State} (h : s.regR ≠ 527#10) :
    s.decryptEdge = { s.quiet with
      regX := decRound s.regX (keyBit s.keyHi s.keyLo (kd s.regR.toNat)), regR := s.regR + 1#10 } := by
  simp only [State.decryptEdge, if_neg h]

theorem decryptEdge_last {s : State} (h : s.regR = 527#10) :
    s.decryptEdge =
      { s with regX := decRound s.regX (keyBit s.keyHi s.keyLo (kd 527)), regR := 528#10 }.complete opDecrypt
        (.data (decRound s.regX (keyBit s.keyHi s.keyLo (kd 527)))) := by
  simp only [State.decryptEdge, h]
  rfl

theorem normlearnEdge_mid {s : State} (h : s.regR ≠ 527#10) :
    s.normlearnEdge = { s.quiet with
      regX := decRound s.regX (keyBit s.keyHi s.keyLo (kd s.regR.toNat)), regR := s.regR + 1#10 } := by
  simp only [State.normlearnEdge, if_neg h]

/-- The 528th edge of pass 0 (R115). -/
theorem normlearnEdge_turn {s : State} (h : s.regR = 527#10) (hp : s.pass = false) :
    s.normlearnEdge = { s.quiet with
      regT := decRound s.regX (keyBit s.keyHi s.keyLo (kd 527)), regX := 0b0110#4 ++ s.regS, regR := 0#10,
      pass := true } := by
  simp [State.normlearnEdge, h, hp]

/-- The 528th edge of pass 1 (R115). -/
theorem normlearnEdge_last {s : State} (h : s.regR = 527#10) (hp : s.pass = true) :
    s.normlearnEdge =
      ({ s with regX := decRound s.regX (keyBit s.keyHi s.keyLo (kd 527)), regR := 528#10 }.writeKey
        (decRound s.regX (keyBit s.keyHi s.keyLo (kd 527))) s.regT).complete opNormlearn .void := by
  simp only [State.normlearnEdge, h, hp, ↓reduceIte, State.quiet_pass]
  rfl

theorem reflectEdge_mid {s : State} (h : s.regR ≠ 31#10) :
    s.reflectEdge = { s.quiet with
      regT := (s.regT <<< 1) ||| bitWord (s.regX.getLsbD 0), regX := s.regX >>> 1, regR := s.regR + 1#10 } := by
  simp only [State.reflectEdge, if_neg h]

theorem reflectEdge_last {s : State} (h : s.regR = 31#10) :
    s.reflectEdge =
      { s with regT := (s.regT <<< 1) ||| bitWord (s.regX.getLsbD 0), regX := s.regX >>> 1, regR := 32#10 }.complete
        opReflectpack (.data ((s.regT <<< 1) ||| bitWord (s.regX.getLsbD 0))) := by
  simp only [State.reflectEdge, h]
  rfl

/-! ### the round counter -/

theorem ofNat10_succ (n : Nat) : BitVec.ofNat 10 n + 1#10 = BitVec.ofNat 10 (n + 1) := by
  apply BitVec.eq_of_toNat_eq
  simp [BitVec.toNat_add]

theorem ofNat10_inj {n m : Nat} (hn : n < 1024) (hm : m < 1024) (h : BitVec.ofNat 10 n = BitVec.ofNat 10 m) :
    n = m := by
  have := congrArg BitVec.toNat h
  simpa [Nat.mod_eq_of_lt hn, Nat.mod_eq_of_lt hm] using this

theorem toNat_ofNat10 {n : Nat} (hn : n < 1024) : (BitVec.ofNat 10 n).toNat = n := by
  rw [BitVec.toNat_ofNat]
  exact Nat.mod_eq_of_lt hn

/-! ### walking through a command -/

/-- A command in progress whose `n`th stage is `f n`, walked from stage `m` through as many working edges as `ps` has,
whatever the command port shows at them. -/
theorem edges_walk (f : Nat → State) (N : Nat) (hb : ∀ n < N, (f n).busy = true)
    (hw : ∀ n < N, (f n).work = .next (f (n + 1))) (ps : List Pins) (m : Nat)
    (hp : ∀ p ∈ ps, p.rst = false) (hm : m + ps.length ≤ N) : edges ps (f m) = .next (f (m + ps.length)) := by
  induction ps generalizing m with
  | nil => rfl
  | cons p ps ih =>
    simp only [List.length_cons] at hm
    have he : edge p (f m) = .next (f (m + 1)) := by
      rw [edge_busy (hp p (by simp)) (hb m (by omega)), hw m (by omega)]
    rw [edges_cons_of_next _ he, ih (m + 1) (fun q hq => hp q (by simp [hq])) (by omega), List.length_cons,
      Nat.add_right_comm, Nat.add_assoc]

end Sys2Proof.Machine
end

