-- ==== Sys2Proof/Laws/PerInstr.lean ====
section
/-! SUPPORT. Facts about each command as syntax. -/
namespace Sys2Proof.Laws.Encoded

/-- The command is well formed, its encoding is an assembler's word (assigned opcode, zeros in the ignored bits: 30_encoding.md
R67, R68), and the opcode of that word is the command's (R62). -/
def Statement (i : Instr) : Prop :=
  i.wellFormed = true ∧ (fieldsOf (encode i)).wellFormed = true ∧ opOf (encode i) = opcodeOf i

theorem setkey (hi lo : Word) : Statement (.setkey hi lo) := by
  simp [Statement, Instr.wellFormed, encode, canonicalFields, opcodeOf, RawCommand.wellFormed, RawCommand.assigned,
    RawCommand.canonical, opSetkey]

theorem getkey (sel : Bool) : Statement (.getkey sel) := by
  cases sel <;> simp [Statement, Instr.wellFormed, encode, canonicalFields, opcodeOf, RawCommand.wellFormed,
    RawCommand.assigned, RawCommand.canonical, opGetkey]

theorem encrypt (p : Word) : Statement (.encrypt p) := by
  simp [Statement, Instr.wellFormed, encode, canonicalFields, opcodeOf, RawCommand.wellFormed, RawCommand.assigned,
    RawCommand.canonical, opEncrypt]

theorem decrypt (c : Word) : Statement (.decrypt c) := by
  simp [Statement, Instr.wellFormed, encode, canonicalFields, opcodeOf, RawCommand.wellFormed, RawCommand.assigned,
    RawCommand.canonical, opDecrypt]

theorem normlearn (serial : Word) : Statement (.normlearn serial) := by
  simp [Statement, Instr.wellFormed, encode, canonicalFields, opcodeOf, RawCommand.wellFormed, RawCommand.assigned,
    RawCommand.canonical, opNormlearn]

theorem reflectpack (w : Word) : Statement (.reflectpack w) := by
  simp [Statement, Instr.wellFormed, encode, canonicalFields, opcodeOf, RawCommand.wellFormed, RawCommand.assigned,
    RawCommand.canonical, opReflectpack]

end Sys2Proof.Laws.Encoded
end

