-- ==== Sys2Proof/Laws/Step.lean ====
section
/-! SUPPORT. What a command and a step can do, said once: a command always answers a next state; what it answers depends on
the key alone; and the step is one of the host's moves. -/
namespace Sys2Proof.Machine

/-- What every command does: it completes with one response, leaves the engine idle and the host's moves alone, and keeps
the key unless it is one of the two that write it. -/
theorem exec_next (i : Instr) (s : State) : ∃ t r, exec i s = .next t ∧ t.rsp = some r ∧ t.busy = false ∧
    t.host = s.host ∧ t.opl = opcodeOf i ∧
    (opcodeOf i ≠ opSetkey → opcodeOf i ≠ opNormlearn →
      t.keyHi = s.keyHi ∧ t.keyLo = s.keyLo) := by
  cases i with
  | setkey hi lo => exact ⟨_, _, rfl, rfl, rfl, rfl, rfl, fun h _ => absurd rfl h⟩
  | normlearn a => exact ⟨_, _, rfl, rfl, rfl, rfl, rfl, fun _ h => absurd rfl h⟩
  | _ => exact ⟨_, _, rfl, rfl, rfl, rfl, rfl, fun _ _ => ⟨rfl, rfl⟩⟩

/-- The response of a command and the key it leaves depend on the key alone. -/
theorem exec_of_same_key (i : Instr) {s s' : State} (hh : s.keyHi = s'.keyHi) (hl : s.keyLo = s'.keyLo) :
    ∃ t t', exec i s = .next t ∧ exec i s' = .next t' ∧ t.rsp = t'.rsp ∧ t.keyHi = t'.keyHi ∧ t.keyLo = t'.keyLo := by
  cases i <;> refine ⟨_, _, rfl, rfl, ?_⟩ <;> simp [hh, hl]

/-! ### the step -/

theorem step_idle_nil {s : State} (hb : s.busy = false) (hh : s.host = []) : step s = .next s.quiet := by
  simp [step, nextStep, hh, hb]

theorem step_idle_cons {s : State} {m : HostMove} {ms : List HostMove} (hb : s.busy = false) (hh : s.host = m :: ms) :
    step s = moveIdle m { s with host := ms } := by
  cases m <;> simp only [step, nextStep, hh, hb, moveIdle] <;> rfl

theorem step_reset {s : State} {ms : List HostMove} (hh : s.host = .reset :: ms) :
    step s = .next { s.resetEdge with host := ms } := by
  simp only [step, nextStep, hh]
  rfl

theorem step_busy {s : State} (hb : s.busy = true) (hh : ∀ ms, s.host ≠ .reset :: ms) :
    step s = s.finish finishFuel := by
  unfold step nextStep
  split
  · rw [if_pos hb]
  · rename_i ms h
    exact absurd h (hh ms)
  · rw [if_pos hb]

theorem perform_ok {w : CommandWord} {i : Instr} (s : State) (hd : decode w = .ok i) : perform w s = exec i s := by
  simp only [perform, hd]

theorem abandon_ok {w : CommandWord} {i : Instr} (s : State) (hd : decode w = .ok i) :
    abandon w s = .next s.resetEdge := by
  simp only [abandon, hd]

theorem finish_idle {s : State} (n : Nat) (hb : s.busy = false) : s.finish n = .next s := by
  cases n <;> simp [State.finish, hb]

theorem finish_busy {s t : State} (n : Nat) (hb : s.busy = true) (hw : s.work = .next t) :
    s.finish (n + 1) = t.finish n := by
  simp [State.finish, hb, hw]

/-! ### runs -/

theorem runCommands_cons {i : Instr} {is : List Instr} {s t u : State} {r : Response} {rs : List Response}
    (h : exec i s = .next t) (hr : t.rsp = some r) (ht : runCommands is t = .next (u, rs)) :
    runCommands (i :: is) s = .next (u, r :: rs) := by
  simp [runCommands, h, hr, ht]

theorem runSteps_succ {n : Nat} {s t u : State} {rs : List Response} (h : step s = .next t)
    (ht : runSteps n t = .next (u, rs)) : runSteps (n + 1) s = .next (u, t.rsp.toList ++ rs) := by
  simp [runSteps, h, ht]

end Sys2Proof.Machine
end

