-- ==== Sys2Proof/Tests/Slice0.lean ====
section
/-! SUPPORT. Tests. Every expected value is taken from 95_test_vectors.md (named by its section) or is written out by hand
from a rule; none is an answer of the model. After them, for every obligation with hypotheses, a concrete input that meets
them, with a boundary value for each clause. -/
namespace Sys2Proof.Tests
open Sys2Proof Sys2Proof.Machine

-- One theorem after another, so that a compile needs few threads.
set_option Elab.async false

/-- An idle engine that holds a key. -/
def st (hi lo : Word) : State := { State.reset with keyHi := hi, keyLo := lo }

/-- The key after an outcome. -/
def keyAfter : Host.Outcome State Fault Refusal → Option (Word × Word)
  | .next t => some (t.keyHi, t.keyLo)
  | _ => none

/-- The response after an outcome. -/
def rspAfter : Host.Outcome State Fault Refusal → Option Response
  | .next t => t.rsp
  | _ => none

/-- The decoded command, if the word is one. -/
def cmd (w : CommandWord) : Option Instr :=
  match decode w with
  | .ok i => some i
  | .error _ => none

/-! ### well-formedness: an ill-formed term for each check -/

theorem test_assigned_refuses_op6 : RawCommand.assigned ⟨6#3, 0xF741E2DB#32, 0#32⟩ = false := by decide
theorem test_assigned_refuses_op7 : RawCommand.wellFormed ⟨7#3, 0#32, 0#32⟩ = false := by decide
theorem test_canonical_refuses_b : RawCommand.wellFormed ⟨2#3, 0xF741E2DB#32, 0xFFFFFFFF#32⟩ = false := by decide
theorem test_canonical_refuses_flag : RawCommand.wellFormed ⟨1#3, 2#32, 0#32⟩ = false := by decide
theorem test_wellFormed_accepts : RawCommand.wellFormed ⟨0#3, 0x5CEC6701#32, 0xB79FD949#32⟩ = true := by decide

/-! ### decoding: words written out from 30_encoding.md R60 to R63 (95_test_vectors.md 8.1, 8.2, section 9) -/

/-- `op` 000, then `a` = 5CEC6701, then `b` = B79FD949, bit by bit. -/
theorem test_decode_setkey :
    cmd 0b000_0101_1100_1110_1100_0110_0111_0000_0001_1011_0111_1001_1111_1101_1001_0100_1001#67 =
      some (.setkey 0x5CEC6701#32 0xB79FD949#32) := by decide
/-- `op` 001, `a` with bit 0 set, `b` zero. -/
theorem test_decode_getkey :
    cmd 0b001_0000_0000_0000_0000_0000_0000_0000_0001_0000_0000_0000_0000_0000_0000_0000_0000#67 =
      some (.getkey true) := by decide
/-- `op` 010, `a` = F741E2DB. -/
theorem test_decode_encrypt :
    cmd 0b010_1111_0111_0100_0001_1110_0010_1101_1011_0000_0000_0000_0000_0000_0000_0000_0000#67 =
      some (.encrypt 0xF741E2DB#32) := by decide
/-- `op` 011, `a` = E44F4CDF. -/
theorem test_decode_decrypt :
    cmd 0b011_1110_0100_0100_1111_0100_1100_1101_1111_0000_0000_0000_0000_0000_0000_0000_0000#67 =
      some (.decrypt 0xE44F4CDF#32) := by decide
/-- `op` 100, `a` = 01234567. -/
theorem test_decode_normlearn :
    cmd 0b100_0000_0001_0010_0011_0100_0101_0110_0111_0000_0000_0000_0000_0000_0000_0000_0000#67 =
      some (.normlearn 0x01234567#32) := by decide
/-- `op` 101, `a` = 1E6A2C48. -/
theorem test_decode_reflectpack :
    cmd 0b101_0001_1110_0110_1010_0010_1100_0100_1000_0000_0000_0000_0000_0000_0000_0000_0000#67 =
      some (.reflectpack 0x1E6A2C48#32) := by decide
/-- 8.2: the all-zero word is a legal command. -/
theorem test_decode_zero : cmd 0#67 = some (.setkey 0#32 0#32) := by decide
/-- 8.2: `op` 6 and 7 are reserved. -/
theorem test_decode_reserved : cmd 0x60000000000000000#67 = none ∧ cmd 0x7FFFFFFFFFFFFFFFF#67 = none := by decide

/-- 8.1: the assembler's words. -/
theorem test_encode_words :
    encode (.setkey 0x01234567#32 0x89ABCDEF#32) = 0x00123456789ABCDEF#67 ∧
    encode (.getkey true) = 0x10000000100000000#67 ∧ encode (.getkey false) = 0x10000000000000000#67 ∧
    encode (.encrypt 0#32) = 0x20000000000000000#67 ∧ encode (.decrypt 0xE44F4CDF#32) = 0x3E44F4CDF00000000#67 ∧
    encode (.normlearn 0xF1234567#32) = 0x4F123456700000000#67 ∧
    encode (.reflectpack 1#32) = 0x50000000100000000#67 := by decide

/-! ### one command -/

/-- Section 7, row 11: `a` goes to `KEYHI`, `b` to `KEYLO`. -/
theorem test_setkey_halves : keyAfter (exec (.setkey 0#32 0xFFFFFFFF#32) (st 0x5CEC6701#32 0xB79FD949#32)) =
    some (0#32, 0xFFFFFFFF#32) := by decide
/-- Section 7, row 6: a select word FFFFFFFE selects the low half. -/
theorem test_getkey_low : rspAfter (perform 0x1FFFFFFFEDEADBEEF#67 (st 0x5CEC6701#32 0xB79FD949#32)) =
    some (.data 0xB79FD949#32) := by decide
/-- Section 7, row 4. -/
theorem test_getkey_high : rspAfter (exec (.getkey true) (st 0x5CEC6701#32 0xB79FD949#32)) =
    some (.data 0x5CEC6701#32) := by decide
/-- Section 4.2, key 01234567:89ABCDEF. -/
theorem test_encrypt : rspAfter (exec (.encrypt 0x12345678#32) (st 0x01234567#32 0x89ABCDEF#32)) =
    some (.data 0xB909A03B#32) := by decide +kernel
/-- Section 4.2, key bit 63 only. -/
theorem test_encrypt_top_key_bit : rspAfter (exec (.encrypt 0#32) (st 0x80000000#32 0#32)) =
    some (.data 0x1B0AB505#32) := by decide +kernel
/-- Section 4.2, all-ones key. -/
theorem test_decrypt : rspAfter (exec (.decrypt 0#32) (st 0xFFFFFFFF#32 0xFFFFFFFF#32)) =
    some (.data 0x346C1344#32) := by decide +kernel
/-- Section 4.2, key bit 16 only. -/
theorem test_decrypt_key_bit_16 : rspAfter (exec (.decrypt 0x12345678#32) (st 0#32 0x00010000#32)) =
    some (.data 0xA7B55F4D#32) := by decide +kernel
/-- Section 5, row 4: the top four serial bits are dropped, and both halves come from the old key. -/
theorem test_normlearn_mask : keyAfter (exec (.normlearn 0xFFFFFFFF#32) (st 0x5CEC6701#32 0xB79FD949#32)) =
    some (0xE9D7DB79#32, 0x27973588#32) := by decide +kernel
/-- Section 5, row 7. -/
theorem test_normlearn : keyAfter (exec (.normlearn 0x00C0FFEE#32) (st 0x01234567#32 0x89ABCDEF#32)) =
    some (0xA51725B0#32, 0x963C909C#32) := by decide +kernel
/-- Section 6, row 11. -/
theorem test_reflectpack : rspAfter (exec (.reflectpack 0x12345678#32) State.reset) =
    some (.data 0x1E6A2C48#32) := by decide +kernel
/-- Section 6, row 9: bit 8 goes to bit 23. -/
theorem test_reflectpack_bit : rspAfter (exec (.reflectpack 0x00000100#32) State.reset) =
    some (.data 0x00800000#32) := by decide +kernel

/-- Section 4.1, rows 2, 4, 6, 10 and 14, 17, 18, 20. -/
theorem test_single_rounds :
    encRound 0#32 true = 0x80000000#32 ∧ encRound 0x00010000#32 false = 0x80008000#32 ∧
    encRound 2#32 false = 0x80000001#32 ∧ encRound 0x84100202#32 false = 0x42080101#32 ∧
    decRound 0x80000000#32 false = 1#32 ∧ decRound 1#32 false = 3#32 ∧
    decRound 0xFFFFFFFF#32 false = 0xFFFFFFFE#32 ∧ decRound 0x42080101#32 false = 0x84100202#32 := by decide
/-- Section 3: the table of the key-bit indices. -/
theorem test_key_indices : [0, 15, 16, 63, 64, 79, 80, 527].map kf = [0, 15, 16, 63, 0, 15, 16, 15] ∧
    [0, 15, 16, 63, 64, 79, 80, 527].map kd = [15, 0, 63, 16, 15, 0, 63, 0] := by decide
/-- Section 6: the iteration trace of row 11 after iteration 4, and the 64-bit accumulator that starts at DEADBEEF. -/
theorem test_reflect_iterations :
    reflectIter 0#32 0x12345678#32 5 = (3#32, 0x0091A2B3#32) ∧
    (reflectIter 0xDEADBEEF#64 0x12345678#32 32).1 = 0xDEADBEEF1E6A2C48#64 := by decide +kernel

/-! ### one step, the clock, the handshake, a listing -/

/-- 95_test_vectors.md section 9, P4 line 2, as the first step after reset. -/
theorem test_step_from_reset : rspAfter (step (State.reset.withFetchWord 67 0x20000000100000000)) =
    some (.data 0x2F197B2E#32) := by decide +kernel
/-- P5: a reserved word has no step. -/
theorem test_step_reserved : step (State.reset.withFetchWord 67 0x60000000000000000) = .refused (.reservedOpcode 6#3) :=
  rfl
/-- Section 10, cycles 1 to 3: the accepting edge of SETKEY, its completing edge, and what is held between them. -/
theorem test_clock_setkey :
    keyAfter (edges [Pins.present 0x05CEC6701B79FD949#67] State.reset) = some (0#32, 0#32) ∧
    keyAfter (edges [Pins.present 0x05CEC6701B79FD949#67, ⟨false, false, 0#3, 0#32, 0#32⟩] State.reset) =
      some (0x5CEC6701#32, 0xB79FD949#32) := by decide
/-- Section 10, cycles 5 to 38: REFLECTPACK answers after its accepting edge and 32 more, not before. -/
theorem test_clock_reflectpack :
    rspAfter (edges (Pins.present 0x50000000100000000#67 :: List.replicate 31 ⟨false, false, 0#3, 0#32, 0#32⟩)
      State.reset) = none ∧
    rspAfter (edges (Pins.present 0x50000000100000000#67 :: List.replicate 32 ⟨false, false, 0#3, 0#32, 0#32⟩)
      State.reset) = some (.data 0x80000000#32) := by decide +kernel
/-- 30_encoding.md R70: the text of a command. -/
theorem test_listing : listing (.setkey 0x5CEC6701#32 0xB79FD949#32) = "SETKEY 0x5CEC6701, 0xB79FD949".toList ∧
    listing (.getkey true) = "GETKEY 1".toList := by decide

/-! ### witnesses: the hypotheses of the obligations can be met -/

/-- No command: one idle cycle of the command port. -/
def noCommand : Pins := ⟨false, false, 0#3, 0#32, 0#32⟩

/-- A reset edge, with a word on the command port. -/
def resetPins : Pins := ⟨true, true, 4#3, 0x01234567#32, 0#32⟩

theorem test_meets_DecoderSelectsByOpcode :
    opOf 0x0FFFFFFFFFFFFFFFF#67 = 0#3 ∧ opOf 0x10000000000000000#67 = 1#3 ∧ opOf 0x2FFFFFFFFFFFFFFFF#67 = 2#3 ∧
    opOf 0x30000000000000000#67 = 3#3 ∧ opOf 0x4FFFFFFFFFFFFFFFF#67 = 4#3 ∧ opOf 0x50000000000000000#67 = 5#3 ∧
    opOf 0x6FFFFFFFFFFFFFFFF#67 = 6#3 ∧ opOf 0x70000000000000000#67 = 7#3 := by decide

theorem test_meets_DecodeOfEncode : (Instr.setkey 0xFFFFFFFF#32 0#32).wellFormed = true ∧
    (Instr.getkey true).wellFormed = true ∧ (Instr.encrypt 0xFFFFFFFF#32).wellFormed = true ∧
    (Instr.decrypt 0#32).wellFormed = true ∧ (Instr.normlearn 0xF0000000#32).wellFormed = true ∧
    (Instr.reflectpack 1#32).wellFormed = true := by decide

theorem test_meets_EncodingIsCanonical :
    (∀ hi lo, Instr.getkey true ≠ .setkey hi lo) ∧ (∀ hi lo, Instr.reflectpack 1#32 ≠ .setkey hi lo) ∧ 1 ≤ 1 ∧
    1 ≤ 31 := by simp

theorem test_meets_EncodeOfDecode :
    (cmd 0x0FFFFFFFFFFFFFFFF#67 = some (.setkey 0xFFFFFFFF#32 0xFFFFFFFF#32) ∧
      (fieldsOf 0x0FFFFFFFFFFFFFFFF#67).canonical = true) ∧
    (cmd 0x10000000100000000#67 = some (.getkey true) ∧ (fieldsOf 0x10000000100000000#67).canonical = true) ∧
    (cmd 0x4FFFFFFFF00000000#67 = some (.normlearn 0xFFFFFFFF#32) ∧
      (fieldsOf 0x4FFFFFFFF00000000#67).canonical = true) := by decide

/-- 8.2: for each opcode with ignored bits, two words that differ in ignored bits only. -/
theorem test_meets_IgnoredBitsHaveNoEffect :
    (opOf 0x1FFFFFFFFFFFFFFFF#67 = opOf 0x10000000100000000#67 ∧
      (aOf 0x1FFFFFFFFFFFFFFFF#67).getLsbD 0 = (aOf 0x10000000100000000#67).getLsbD 0) ∧
    (opOf 0x2F741E2DBFFFFFFFF#67 = opOf 0x2F741E2DB00000000#67 ∧
      aOf 0x2F741E2DBFFFFFFFF#67 = aOf 0x2F741E2DB00000000#67) ∧
    (opOf 0x3E44F4CDF00000001#67 = opOf 0x3E44F4CDF00000000#67 ∧
      aOf 0x3E44F4CDF00000001#67 = aOf 0x3E44F4CDF00000000#67) ∧
    (opOf 0x4F123456755555555#67 = opOf 0x40123456700000000#67 ∧
      ∀ j < 28, (aOf 0x4F123456755555555#67).getLsbD j = (aOf 0x40123456700000000#67).getLsbD j) ∧
    (opOf 0x500000001CAFEF00D#67 = opOf 0x50000000100000000#67 ∧
      aOf 0x500000001CAFEF00D#67 = aOf 0x50000000100000000#67) ∧
    (opOf 0x6F741E2DB00000000#67 = opOf 0x60000000000000000#67) := by decide

/-- The host presents a reserved word, or would abandon one. -/
theorem test_meets_ReservedOpcodeRefused :
    opOf 0x60000000000000000#67 = 6#3 ∧ opOf 0x7FFFFFFFFFFFFFFFF#67 = 7#3 ∧
    ({ State.reset with host := [.command 0x60000000000000000#67] }).busy = false ∧
    ({ State.reset with host := [.command 0x60000000000000000#67] }).host = .command 0x60000000000000000#67 :: [] ∧
    ({ State.reset with host := [.abandoned 0x7FFFFFFFFFFFFFFFF#67] }).host =
      .abandoned 0x7FFFFFFFFFFFFFFFF#67 :: [] := by decide

theorem test_meets_StepRunsDecodedCommand :
    ({ State.reset with host := [.command 0x40123456700000000#67, .idle] }).busy = false ∧
    ({ State.reset with host := [.command 0x40123456700000000#67, .idle] }).host =
      .command 0x40123456700000000#67 :: [.idle] ∧
    cmd 0x40123456700000000#67 = some (.normlearn 0x01234567#32) ∧
    decodeTableWord 67 0x50000000100000000 = some (.reflectpack 1#32) ∧
    decodeTableWord 67 0 = some (.setkey 0#32 0#32) := by decide

/-- A state for each of the other moves: a reset with a command in progress, an abandoned command, an idle cycle, no move. -/
theorem test_meets_StepOfOtherMoves :
    ({ State.reset with busy := true, host := [.reset] }).host = .reset :: [] ∧
    (({ State.reset with host := [.abandoned 0x01111111122222222#67, .idle] }).busy = false ∧
      ({ State.reset with host := [.abandoned 0x01111111122222222#67, .idle] }).host =
        .abandoned 0x01111111122222222#67 :: [.idle] ∧
      cmd 0x01111111122222222#67 = some (.setkey 0x11111111#32 0x22222222#32)) ∧
    ({ State.reset with host := [.idle, .reset] }).host = .idle :: [.reset] ∧ State.reset.host = [] ∧
    State.reset.busy = false := by decide

/-- A host that makes each kind of move. -/
def busyHost : State :=
  { st 1#32 2#32 with host := [.command 0x40123456700000000#67, .idle, .abandoned 0x0FFFFFFFFFFFFFFFF#67, .reset] }

theorem test_meets_AllowedMovesNeverStop : busyHost.busy = false ∧ ∀ m ∈ busyHost.host, m.allowed = true := by decide

/-- The four commands that write no key. -/
def readers : List Instr := [.getkey true, .getkey false, .encrypt 5#32, .decrypt 0xFFFFFFFF#32, .reflectpack 1#32]

theorem test_meets_KeyReadsBack : ∀ i ∈ readers, commandWritesKey i = false := by decide
theorem test_meets_KeyReadsBack_empty : ∀ i ∈ ([] : List Instr), commandWritesKey i = false := by decide
theorem test_meets_NewKeyIsUsed : ∀ i ∈ readers ++ readers, commandWritesKey i = false := by decide

theorem test_meets_NlfTableEntries : (0 < 32 ∧ 31 < 32) ∧ nlfBit 31 = false ∧ nlfBit 29 = true := by decide
theorem test_meets_ForwardRoundBits : 0 ≤ 30 ∧ 30 ≤ 30 := by decide
theorem test_meets_InverseRoundBits : (1 ≤ 1 ∧ 1 ≤ 31) ∧ 1 ≤ 31 ∧ 31 ≤ 31 := by decide
theorem test_meets_KeyScheduleReversed : (0 ≤ 527 ∧ 527 ≤ 527) ∧ kd 0 = 15 ∧ kf (527 - 0) = 15 := by decide

/-- The boundary between the halves: bit 31 is the top of `KEYLO`, bit 32 the bottom of `KEYHI`. -/
theorem test_meets_KeyBitReadsKeyView :
    (0 < 64 ∧ 31 < 64 ∧ 32 < 64 ∧ 63 < 64) ∧ keyBit 0#32 0x80000000#32 31 = true ∧ keyBit 1#32 0#32 32 = true ∧
    keyBit 0x80000000#32 0#32 63 = true := by decide

theorem test_meets_KeyBitUsageCounts : (0 < 64 ∧ 15 < 64 ∧ 15 ≤ 15) ∧ 16 < 64 ∧ 63 < 64 := by decide

theorem test_meets_WorkedExamples : (st 0x5CEC6701#32 0xB79FD949#32).keyHi = 0x5CEC6701#32 ∧
    (st 0x5CEC6701#32 0xB79FD949#32).keyLo = 0xB79FD949#32 := by decide

/-- Bits 0 and 27 are in range, and two serials agree below bit 28 and differ above. -/
theorem test_meets_SeedBits : (0 < 28 ∧ 27 < 28) ∧
    ∀ i < 28, (0xF1234567#32 : Word).getLsbD i = (0x01234567#32 : Word).getLsbD i := by decide

theorem test_meets_DerivedHalvesDiffer :
    (st 1#32 2#32).arch = ({ st 1#32 2#32 with regX := 7#32, pass := true }).arch := by decide

theorem test_meets_SerialTopBitsIgnored :
    (0xF1234567#32 : Word) &&& 0x0FFFFFFF#32 = (0x01234567#32 : Word) &&& 0x0FFFFFFF#32 := by decide

theorem test_meets_ReflectpackReversesBits : 0 < 32 ∧ 31 < 32 := by decide
theorem test_meets_ReflectIterationComputesReversal : 0 ≤ 32 ∧ 32 ≤ 32 := by decide
theorem test_meets_ReflectAccumulatorIsFree : 32 ≤ 32 ∧ 32 ≤ 33 ∧ 32 ≤ 64 := by decide
theorem test_meets_ReflectLaws : 0 ≤ 31 ∧ 31 ≤ 31 := by decide

theorem test_meets_HiddenRegisterFrame :
    (∃ t, exec (.setkey 1#32 2#32) (st 3#32 4#32) = .next t) ∧ (∃ t, exec (.getkey true) (st 3#32 4#32) = .next t) ∧
    (∃ t, exec (.encrypt 1#32) (st 3#32 4#32) = .next t) ∧ (∃ t, exec (.decrypt 1#32) (st 3#32 4#32) = .next t) ∧
    (∃ t, exec (.normlearn 1#32) (st 3#32 4#32) = .next t) ∧
    (∃ t, exec (.reflectpack 1#32) (st 3#32 4#32) = .next t) :=
  ⟨⟨_, rfl⟩, ⟨_, rfl⟩, ⟨_, rfl⟩, ⟨_, rfl⟩, ⟨_, rfl⟩, ⟨_, rfl⟩⟩

/-- A host whose moves write no key. -/
def quietHost : State :=
  { st 1#32 2#32 with host := [.command 0x1FFFFFFFFFFFFFFFF#67, .idle, .command 0x2F741E2DB00000000#67,
      .command 0x3E44F4CDF00000000#67, .command 0x500000001CAFEF00D#67] }

theorem test_meets_KeyPersists :
    quietHost.busy = false ∧ ∀ m ∈ quietHost.host, m.allowed = true ∧ m.writesKey = false := by decide

theorem test_meets_CommandsAreIdempotent : (∀ serial, Instr.setkey 1#32 2#32 ≠ .normlearn serial) ∧
    (∀ serial, Instr.getkey true ≠ .normlearn serial) ∧ (∀ serial, Instr.encrypt 1#32 ≠ .normlearn serial) ∧
    (∀ serial, Instr.decrypt 1#32 ≠ .normlearn serial) ∧
    (∀ serial, Instr.reflectpack 1#32 ≠ .normlearn serial) ∧
    commandWritesKey (.reflectpack 1#32) = false := by simp [commandWritesKey]

theorem test_meets_PureCommandsInterleaveFreely : commandWritesKey (.encrypt 1#32) = false ∧
    commandWritesKey (.reflectpack 1#32) = false := by decide

/-- Two instances, each with a command waiting. -/
def twoEngines : Vector State 2 :=
  #v[{ st 1#32 2#32 with host := [.command 0x1FFFFFFFFFFFFFFFF#67] },
    { st 3#32 4#32 with host := [.command 0x05CEC6701B79FD949#67] }]

theorem test_meets_InstancesShareNothing : ((0 : Fin 2) ≠ 1) ∧ ∃ fs gs,
    stepInstance 0 twoEngines = .next fs ∧ stepInstance 1 fs = .next gs := ⟨by decide, _, _, rfl, rfl⟩

theorem test_meets_HiddenStateCarriesNothing :
    (st 1#32 2#32).SameButHidden { st 1#32 2#32 with regX := 9#32, regR := 528#10, regS := 7#28, opl := 4#3 } ∧
    (st 1#32 2#32).busy = false := ⟨⟨rfl, rfl, rfl, rfl, rfl⟩, rfl⟩

/-- An engine in the middle of its SETKEY: accepted, one edge from completion. -/
def inSetkey : State :=
  { st 1#32 2#32 with regX := 0x5CEC6701#32, regT := 0xB79FD949#32, busy := true }

theorem test_meets_ResetEdgeEffect : resetPins.rst = true ∧ ({ noCommand with rst := true }).rst = true ∧
    inSetkey.host = (st 3#32 4#32).host := by decide

/-- Reset at the completing edge of SETKEY, whose latency is 1; and at a middle edge of NORMLEARN. -/
theorem test_meets_ResetAbandonsCommand :
    (st 1#32 2#32).busy = false ∧ cmd 0x01111111122222222#67 = some (.setkey 0x11111111#32 0x22222222#32) ∧
    (∀ p ∈ ([] : List Pins), p.rst = false) ∧
    ([] : List Pins).length < Config.refLat (opcodeOf (.setkey 0x11111111#32 0x22222222#32)) ∧
    (∀ p ∈ List.replicate 600 noCommand, p.rst = false) ∧
    (List.replicate 600 noCommand).length < Config.refLat (opcodeOf (.normlearn 0#32)) ∧ resetPins.rst = true :=
  ⟨rfl, by decide, by simp, by decide, fun _ h => by rw [List.eq_of_mem_replicate h]; rfl,
    List.length_replicate.trans_lt (by decide), rfl⟩

theorem test_meets_ReferenceRefinesCommand :
    (st 1#32 2#32).busy = false ∧ cmd 0x05CEC6701B79FD949#67 = some (.setkey 0x5CEC6701#32 0xB79FD949#32) ∧
    (∀ p ∈ [noCommand], p.rst = false) ∧
    [noCommand].length = Config.refLat (opcodeOf (.setkey 0x5CEC6701#32 0xB79FD949#32)) := by decide

/-- Latency 2: one edge before the completion and at it; and latency 1, with no edge between. -/
theorem test_meets_HandshakeCompletesAfterLatency :
    cmd 0x2F741E2DBFFFFFFFF#67 = some (.encrypt 0xF741E2DB#32) ∧ 0 < (fun _ : Opcode => 2) 2#3 ∧
    (∀ p ∈ [noCommand, noCommand], p.rst = false) ∧ [noCommand].length < (fun _ : Opcode => 2) 2#3 ∧
    [noCommand, noCommand].length = (fun _ : Opcode => 2) 2#3 ∧ ([] : List Pins).length < (fun _ : Opcode => 1) 2#3 ∧
    [noCommand].length = (fun _ : Opcode => 1) 2#3 := by decide

theorem test_meets_ReferenceMeetsHandshake : (st 1#32 2#32).busy = false ∧
    (∃ t, edges [Pins.present 0x05CEC6701B79FD949#67, noCommand, resetPins] (st 1#32 2#32) = .next t) ∧
    edges [noCommand, Pins.present 0x60000000000000000#67] (st 1#32 2#32) = .refused (.reservedOpcode 6#3) :=
  ⟨rfl, ⟨_, rfl⟩, rfl⟩

theorem test_meets_ResponsePulseLastsOneCycle :
    ((st 1#32 2#32).busy = false ∧ ∃ t, edge noCommand { st 1#32 2#32 with rsp := some .void } = .next t) ∧
    (∃ t, edge (Pins.present 0x05CEC6701B79FD949#67) { st 1#32 2#32 with rsp := some .void } = .next t) ∧
    inSetkey.busy = true ∧ noCommand.rst = false ∧ (Pins.present 0x05CEC6701B79FD949#67).rst = false :=
  ⟨⟨rfl, _, rfl⟩, ⟨_, rfl⟩, rfl, rfl, rfl⟩

/-- An edge that keeps the key, a reset edge, and a completing edge. -/
theorem test_meets_KeyWrittenOnlyAtCompletion :
    (∃ t, edge noCommand (st 1#32 2#32) = .next t) ∧ (∃ t, edge resetPins inSetkey = .next t) ∧
    (∃ t, edge noCommand inSetkey = .next t) := ⟨⟨_, rfl⟩, ⟨_, rfl⟩, ⟨_, rfl⟩⟩

/-- SETKEY right after its accepting edge, and REFLECTPACK at its last working edge but one. -/
theorem test_meets_CommandInProgressCompletes :
    (st 1#32 2#32).busy = false ∧ cmd 0x05CEC6701B79FD949#67 = some (.setkey 0x5CEC6701#32 0xB79FD949#32) ∧
    (∀ p ∈ List.replicate 31 noCommand, p.rst = false) ∧
    ([] : List Pins).length < Config.refLat (opcodeOf (.setkey 0x5CEC6701#32 0xB79FD949#32)) ∧
    (List.replicate 31 noCommand).length < Config.refLat (opcodeOf (.reflectpack 1#32)) ∧
    (∃ u, edges [Pins.present 0x05CEC6701B79FD949#67] (st 1#32 2#32) = .next u) ∧
    (∀ ms, (st 1#32 2#32).host ≠ .reset :: ms) :=
  ⟨rfl, by decide, by decide, by decide, by decide, ⟨_, rfl⟩, fun _ h => by cases h⟩

theorem test_meets_HostDutiesOnlyRefuse :
    ((Pins.present 0x60000000000000000#67).cmdValid = true ∧ (Pins.present 0x60000000000000000#67).cmdOp = 6#3) ∧
    (Pins.present 0x05CEC6701B79FD949#67).cmdValid = true ∧
    (fieldsOf (Pins.present 0x05CEC6701B79FD949#67).word).assigned = true ∧
    0x00123456789ABCDEF#67 ≠ (Pins.present 0x05CEC6701B79FD949#67).word ∧
    ∃ t, hostEdges none [Pins.present 0x05CEC6701B79FD949#67, noCommand] (st 1#32 2#32) = .next t :=
  ⟨by decide, by decide, by decide, by decide, _, rfl⟩

/-- SETKEY is accepted, then the host presents GETKEY 1 while the engine is busy and keeps it until it is accepted. -/
def lawfulPins : List Pins :=
  [Pins.present 0x05CEC6701B79FD949#67, Pins.present 0x10000000100000000#67, Pins.present 0x10000000100000000#67]

theorem lawfulPins_lawful : HostLawful none lawfulPins (st 1#32 2#32) :=
  ⟨fun _ => ⟨by decide, nofun⟩, fun _ h => by
    cases h
    exact ⟨fun _ => ⟨by decide, nofun⟩, fun _ h => by
      cases h
      exact ⟨fun _ => ⟨by decide, fun _ h => by cases h; rfl⟩, fun _ _ => trivial⟩⟩⟩

/-- The host's edges up to a busy one, at which it presents a word that is not accepted; then a reserved word, another
assigned word, or the same word. -/
theorem test_meets_HostDutiesOnlyRefuse_edges :
    HostLawful none ([] : List Pins) (st 1#32 2#32) ∧
    HostLawful none ([Pins.present 0x05CEC6701B79FD949#67] ++ [Pins.present 0x10000000100000000#67]) (st 1#32 2#32) ∧
    (∃ u t, edges [Pins.present 0x05CEC6701B79FD949#67] (st 1#32 2#32) = .next u ∧
      edge (Pins.present 0x10000000100000000#67) u = .next t ∧
      u.cmdReady (Pins.present 0x10000000100000000#67).rst = false) ∧
    (fieldsOf (Pins.present 0x2F741E2DB00000000#67).word).assigned = true ∧
    (Pins.present 0x2F741E2DB00000000#67).word ≠ (Pins.present 0x10000000100000000#67).word ∧
    HostLawful none lawfulPins (st 1#32 2#32) ∧ ((st 1#32 2#32).busy = true → (st 1#32 2#32).opl.toNat ≤ 5) :=
  ⟨trivial, ⟨lawfulPins_lawful.1, fun t h => ⟨(lawfulPins_lawful.2 t h).1, fun _ _ => trivial⟩⟩,
    ⟨_, _, rfl, rfl, rfl⟩, by decide, by decide, lawfulPins_lawful, by decide⟩

/-- 20_memory.md R50, 93_implementation_defined.md U6: a command changed while presented at a busy edge is refused; one kept
stable is served. -/
theorem test_host_unstable :
    hostEdges none [Pins.present 0x05CEC6701B79FD949#67, Pins.present 0x10000000100000000#67,
      Pins.present 0x2F741E2DB00000000#67] (st 1#32 2#32) = .refused .unstableCommand ∧
    ∃ t, hostEdges none lawfulPins (st 1#32 2#32) = .next t ∧ t.busy = true ∧ t.opl = 1#3 :=
  ⟨rfl, _, rfl, rfl, rfl⟩

/-- The invariant in the middle of a SETKEY. -/
theorem test_inv_inSetkey : inSetkey.Inv where
  count := by decide
  running := fun _ => ⟨rfl, ⟨by decide, by decide, by decide, by decide, by decide⟩⟩
  data := by simp [inSetkey, st, State.reset]
  pulse := by simp [inSetkey, st, State.reset]

theorem test_meets_EdgeKeepsInvariant : inSetkey.Inv ∧ ∃ t, edge noCommand inSetkey = .next t :=
  ⟨test_inv_inSetkey, _, rfl⟩

theorem test_meets_StepKeepsInvariant : inSetkey.Inv ∧ ∃ t, step inSetkey = .next t :=
  ⟨test_inv_inSetkey, _, rfl⟩

end Sys2Proof.Tests
end

/-! PROOFS. How a step serves the word on the command port: the laws of the command move and of a placed table word, and the
statement O10 they give. -/
namespace Sys2Proof.Machine

/-- An idle engine executes the presented command in one step, that move of the host consumed (00_scope.md R12). -/
theorem step_command {s : State} {w : CommandWord} {ms : List HostMove} {i : Instr} (hb : s.busy = false)
    (hh : s.host = .command w :: ms) (hd : decode w = .ok i) : step s = exec i { s with host := ms } :=
  calc step s = perform w { s with host := ms } := step_idle_cons hb hh
    _ = exec i { s with host := ms } := perform_ok _ hd

/-- A placed table word is the next command, and the host's own moves come after it unchanged. -/
theorem step_withFetchWord {nbits w : Nat} {i : Instr} (s : State) (hd : decodeTableWord nbits w = some i) :
    step (s.withFetchWord nbits w) = exec i { s with busy := false } :=
  step_command (s := s.withFetchWord nbits w) rfl rfl (decodeTableWord_eq_some.mp hd)

end Sys2Proof.Machine

namespace Sys2Proof
open Sys2Proof.Machine

/-- Settles O10: the command move of an idle engine is `exec` of the decoded word, and a placed table word is such a move. -/
theorem stepRunsDecodedCommand : Obligations.StepRunsDecodedCommand :=
  ⟨fun _ _ _ _ hb hh hd => step_command hb hh hd, fun s _ _ _ hd => step_withFetchWord s hd⟩

end Sys2Proof

/-! PROOFS. The bits of the two rounds, the inverse round undone by the forward round, and so no two words decrypted alike. -/
namespace Sys2Proof.Machine

theorem getLsbD_encRound (x : Word) (k : Bool) (i : Nat) :
    (encRound x k).getLsbD i = if i = 31 then encFeedback x k else x.getLsbD (i + 1) := by
  rw [encRound, BitVec.getLsbD_or, BitVec.getLsbD_ushiftRight, BitVec.getLsbD_shiftLeft, getLsbD_bitWord, Nat.add_comm 1]
  split
  · next h => simp [h]
  · next h =>
    have : ¬ (i < 32 ∧ ¬ i < 31) := by omega
    simp_all

theorem getLsbD_decRound (x : Word) (k : Bool) (i : Nat) :
    (decRound x k).getLsbD i = if i = 0 then decFeedback x k else decide (i < 32) && x.getLsbD (i - 1) := by
  rw [decRound, BitVec.getLsbD_xor, BitVec.getLsbD_shiftLeft, getLsbD_bitWord]
  split <;> simp_all

/-- The forward taps of the shifted word are the inverse taps of the word (41_cipher_round_engine.md R92, R96). -/
theorem idxF_decRound (x : Word) (k : Bool) : idxF (decRound x k) = idxD x := by
  simp [idxF, idxD, getLsbD_decRound, -BitVec.getLsbD_eq_getElem]

/-- R99: a forward round undoes an inverse round with the same key bit. -/
theorem encRound_decRound (x : Word) (k : Bool) : encRound (decRound x k) k = x := by
  have cancel : ∀ a b n k : Bool, ((a ^^ b ^^ n ^^ k) ^^ b ^^ n ^^ k) = a := by decide
  apply BitVec.eq_of_getLsbD_eq
  intro i hi
  rw [getLsbD_encRound]
  split
  · next h =>
    rw [encFeedback, idxF_decRound, getLsbD_decRound, getLsbD_decRound, h]
    exact cancel ..
  · next h => simp [getLsbD_decRound, show i + 1 < 32 by omega, -BitVec.getLsbD_eq_getElem]

theorem decRound_injective (k : Bool) : Function.Injective (decRound · k) :=
  Function.LeftInverse.injective (g := (encRound · k)) fun x => encRound_decRound x k

theorem decRounds_injective (hi lo : Word) (n : Nat) : Function.Injective (decRounds hi lo n) := by
  induction n with
  | zero => exact fun _ _ h => h
  | succ n ih => exact (decRound_injective _).comp ih

theorem decryptWord_injective (hi lo : Word) : Function.Injective (decryptWord hi lo) := decRounds_injective hi lo 528

/-- The two seeds of one serial differ in bit 30, so their decryptions differ (42_key_derivation.md R113). -/
theorem decryptWord_seeds_ne (hi lo : Word) (f : BitVec 28) :
    decryptWord hi lo (0b0110#4 ++ f) ≠ decryptWord hi lo (0b0010#4 ++ f) := by
  intro h
  have seeds : 0b0110#4 ++ f = 0b0010#4 ++ f := decryptWord_injective hi lo h
  have bit30 : (0b0110#4 ++ f).getLsbD 30 = (0b0010#4 ++ f).getLsbD 30 := congrArg (BitVec.getLsbD · 30) seeds
  rw [BitVec.getLsbD_append, BitVec.getLsbD_append] at bit30
  simp at bit30

end Sys2Proof.Machine

/-! PROOFS. The invariant: how it is met in a state with no response, with data or with the bare pulse, and that a reset, an
idle cycle, an accepting edge, a whole command and every working edge give such a state. -/
namespace Sys2Proof.Machine

/-! ### meeting the invariant -/

theorem State.Inv.of_silent {s : State} (hc : s.regR.toNat ≤ roundCount) (hr : s.rsp = none)
    (hf : s.busy = true → s.InFlight) : s.Inv where
  count := hc
  running hb := ⟨hr, hf hb⟩
  data q h := by simp [hr] at h
  pulse h := by simp [hr] at h

theorem State.Inv.of_data {s : State} {q : Word} (hc : s.regR.toNat ≤ roundCount) (hb : s.busy = false)
    (hr : s.rsp = some (.data q))
    (ho : s.opl = opGetkey ∨ s.opl = opEncrypt ∨ s.opl = opDecrypt ∨ s.opl = opReflectpack) : s.Inv where
  count := hc
  running h := by simp [hb] at h
  data _ _ := ho
  pulse h := by simp [hr] at h

theorem State.Inv.of_pulse {s : State} (hc : s.regR.toNat ≤ roundCount) (hb : s.busy = false)
    (hr : s.rsp = some .void) (ho : s.opl = opSetkey ∨ (s.opl = opNormlearn ∧ s.keyHi ≠ s.keyLo)) : s.Inv where
  count := hc
  running h := by simp [hb] at h
  data q h := by simp [hr] at h
  pulse _ := ho

/-- The invariant does not speak of the host's coming moves. -/
theorem State.Inv.with_host {s : State} (h : s.Inv) (ms : List HostMove) : State.Inv { s with host := ms } where
  count := h.count
  running hb := by
    obtain ⟨hr, hf⟩ := h.running hb
    exact ⟨hr, hf.assigned, hf.cipherCount, hf.reflectCount, hf.firstPass, hf.secondPass⟩
  data := h.data
  pulse := h.pulse

theorem resetEdge_inv (s : State) : s.resetEdge.Inv := .of_silent (Nat.zero_le _) rfl nofun

theorem State.Inv.quiet {s : State} (h : s.Inv) (hb : s.busy = false) : s.quiet.Inv :=
  .of_silent h.count rfl fun hb' => by simp [hb] at hb'

/-! ### in flight, by the command in `OPL` -/

theorem State.InFlight.of_access {s : State} (ho : s.opl = opSetkey ∨ s.opl = opGetkey) : s.InFlight := by
  rcases ho with ho | ho <;>
    constructor <;> simp [ho, opSetkey, opGetkey, opEncrypt, opDecrypt, opNormlearn, opReflectpack]

theorem State.InFlight.of_cipher {s : State} (ho : s.opl = opEncrypt ∨ s.opl = opDecrypt)
    (hc : s.regR.toNat < roundCount) : s.InFlight := by
  rcases ho with ho | ho <;>
    constructor <;> simp [ho, hc, opEncrypt, opDecrypt, opNormlearn, opReflectpack]

theorem State.InFlight.of_reflect {s : State} (ho : s.opl = opReflectpack) (hc : s.regR.toNat < Machine.reflectCount) :
    s.InFlight := by
  constructor <;> simp [ho, hc, opEncrypt, opDecrypt, opNormlearn, opReflectpack]

theorem State.InFlight.of_learn {s : State} (ho : s.opl = opNormlearn) (hc : s.regR.toNat < roundCount)
    (h0 : s.pass = false → s.regX = decRounds s.keyHi s.keyLo s.regR.toNat (0b0010#4 ++ s.regS))
    (h1 : s.pass = true → s.regT = decryptWord s.keyHi s.keyLo (0b0010#4 ++ s.regS) ∧
      s.regX = decRounds s.keyHi s.keyLo s.regR.toNat (0b0110#4 ++ s.regS)) : s.InFlight where
  assigned := by simp [ho, opNormlearn]
  cipherCount _ := hc
  reflectCount h := by simp [ho, opNormlearn, opReflectpack] at h
  firstPass _ := h0
  secondPass _ := h1

/-- The accepting edge loads what the sequencing asks for before its first round (R106, R115, R125). -/
theorem accept_inFlight (i : Instr) (s : State) : (s.accept i).InFlight := by
  cases i with
  | setkey hi lo => exact .of_access (.inl rfl)
  | getkey sel => exact .of_access (.inr rfl)
  | encrypt p => exact .of_cipher (.inl rfl) (Nat.zero_lt_succ _)
  | decrypt c => exact .of_cipher (.inr rfl) (Nat.zero_lt_succ _)
  | normlearn serial => exact .of_learn rfl (Nat.zero_lt_succ _) (fun _ => seedLo_eq_append serial) nofun
  | reflectpack w => exact .of_reflect rfl (Nat.zero_lt_succ _)

theorem accept_inv {s : State} (hc : s.regR.toNat ≤ roundCount) (i : Instr) : (s.accept i).Inv := by
  have count : (s.accept i).regR.toNat ≤ roundCount := by
    cases i with
    | setkey hi lo => exact hc
    | getkey sel => exact hc
    | _ => exact Nat.zero_le _
  exact .of_silent count (by simp) fun _ => accept_inFlight i s

/-- A whole command leaves its round counter in range and the response its opcode gives. -/
theorem exec_inv {i : Instr} {s t : State} (hc : s.regR.toNat ≤ roundCount) (h : exec i s = .next t) : t.Inv := by
  cases i with
  | setkey hi lo => cases h; exact .of_pulse hc rfl rfl (.inl rfl)
  | getkey sel => cases h; exact .of_data hc rfl rfl (.inl rfl)
  | encrypt p => cases h; exact .of_data (Nat.le_refl _) rfl rfl (.inr (.inl rfl))
  | decrypt c => cases h; exact .of_data (Nat.le_refl _) rfl rfl (.inr (.inr (.inl rfl)))
  | normlearn serial =>
    cases h
    refine .of_pulse (Nat.le_refl _) rfl rfl (.inr ⟨rfl, ?_⟩)
    have halves := decryptWord_seeds_ne s.keyHi s.keyLo (serialField serial)
    rwa [← seedHi_eq_append, ← seedLo_eq_append] at halves
  | reflectpack w =>
    cases h
    exact .of_data (show 32 ≤ 528 by decide) rfl rfl (.inr (.inr (.inr rfl)))

/-! ### the working edges -/

/-- A bound on the working edges a command still needs, the two passes of NORMLEARN counted. -/
def State.edgesLeft (s : State) : Nat := (if s.pass then roundCount else 2 * roundCount) - s.regR.toNat

/-- What a working edge does for a command in flight: it keeps the invariant, and it completes or brings the completion
nearer. -/
def State.WorksTo (s t : State) : Prop := t.Inv ∧ (t.busy = true → t.edgesLeft < s.edgesLeft)

theorem State.WorksTo.of_complete {s t : State} (hi : t.Inv) (hb : t.busy = false) : s.WorksTo t :=
  ⟨hi, fun h => by simp [hb] at h⟩

theorem regR_succ {r : BitVec 10} {n : Nat} (hr : r.toNat < n + 1) (hn : n < 1023) (hne : r ≠ BitVec.ofNat 10 n) :
    (r + 1#10).toNat = r.toNat + 1 ∧ r.toNat < n := by
  bv_omega

/-- A working edge that goes from one round to the next of the same pass, as every edge but the last of a pass does. -/
theorem State.WorksTo.of_round {s t : State} (hR : t.regR.toNat = s.regR.toNat + 1) (hc : s.regR.toNat < roundCount)
    (hp : t.pass = s.pass) (hr : t.rsp = none) (hf : t.InFlight) : s.WorksTo t := by
  refine ⟨.of_silent (hR ▸ hc) hr fun _ => hf, fun _ => ?_⟩
  rw [edgesLeft, edgesLeft, hp, hR]
  split <;> omega

theorem encryptEdge_worksTo {s : State} (ho : s.opl = opEncrypt) (hf : s.InFlight) : s.WorksTo s.encryptEdge := by
  have hc : s.regR.toNat < 528 := hf.cipherCount (.inl ho)
  by_cases hR : s.regR = 527#10
  · rw [encryptEdge_last hR]
    exact .of_complete (.of_data (Nat.le_refl _) rfl rfl (.inr (.inl rfl))) rfl
  · rw [encryptEdge_mid hR]
    obtain ⟨hsucc, hlt⟩ := regR_succ hc (by decide) hR
    exact .of_round hsucc hc rfl rfl (.of_cipher (.inl ho) (hsucc.trans_lt (Nat.succ_lt_succ hlt)))

theorem decryptEdge_worksTo {s : State} (ho : s.opl = opDecrypt) (hf : s.InFlight) : s.WorksTo s.decryptEdge := by
  have hc : s.regR.toNat < 528 := hf.cipherCount (.inr (.inl ho))
  by_cases hR : s.regR = 527#10
  · rw [decryptEdge_last hR]
    exact .of_complete (.of_data (Nat.le_refl _) rfl rfl (.inr (.inr (.inl rfl)))) rfl
  · rw [decryptEdge_mid hR]
    obtain ⟨hsucc, hlt⟩ := regR_succ hc (by decide) hR
    exact .of_round hsucc hc rfl rfl (.of_cipher (.inr ho) (hsucc.trans_lt (Nat.succ_lt_succ hlt)))

theorem reflectEdge_worksTo {s : State} (ho : s.opl = opReflectpack) (hf : s.InFlight) : s.WorksTo s.reflectEdge := by
  have hc : s.regR.toNat < 32 := hf.reflectCount ho
  by_cases hR : s.regR = 31#10
  · rw [reflectEdge_last hR]
    exact .of_complete (.of_data (show 32 ≤ 528 by decide) rfl rfl (.inr (.inr (.inr rfl)))) rfl
  · rw [reflectEdge_mid hR]
    obtain ⟨hsucc, hlt⟩ := regR_succ hc (by decide) hR
    exact .of_round hsucc (hc.trans (by decide)) rfl rfl (.of_reflect ho (hsucc.trans_lt (Nat.succ_lt_succ hlt)))

/-- One more inverse round on a working value that is `n` rounds of `c`. -/
theorem decRound_of_decRounds {hi lo x c : Word} {n : Nat} (hx : x = decRounds hi lo n c) :
    decRound x (keyBit hi lo (kd n)) = decRounds hi lo (n + 1) c := by
  rw [decRounds_succ, hx]

/-- The four kinds of edge of NORMLEARN (R115): inside either pass, the turn to the second seed, and the write of both
halves, which are the decryptions of the two seeds. -/
theorem normlearnEdge_worksTo {s : State} (ho : s.opl = opNormlearn) (hf : s.InFlight) : s.WorksTo s.normlearnEdge := by
  have hc : s.regR.toNat < 528 := hf.cipherCount (.inr (.inr ho))
  by_cases hR : s.regR = 527#10
  · have hN : s.regR.toNat = 527 := by rw [hR]; rfl
    cases hp : s.pass with
    | false =>
      have hX := hf.firstPass ho hp
      rw [hN] at hX
      rw [normlearnEdge_turn hR hp]
      refine ⟨.of_silent (Nat.zero_le _) rfl fun _ =>
        .of_learn ho (Nat.zero_lt_succ _) nofun fun _ => ⟨decRound_of_decRounds hX, rfl⟩, fun _ => ?_⟩
      simp [State.edgesLeft, hp, hN, roundCount]
    | true =>
      obtain ⟨hT, hX⟩ := hf.secondPass ho hp
      rw [hN] at hX
      rw [normlearnEdge_last hR hp]
      refine .of_complete (.of_pulse (Nat.le_refl _) rfl rfl (.inr ⟨rfl, ?_⟩)) rfl
      have halves := decryptWord_seeds_ne s.keyHi s.keyLo s.regS
      rwa [← hT, decryptWord_eq, ← decRound_of_decRounds hX] at halves
  · rw [normlearnEdge_mid hR]
    obtain ⟨hsucc, hlt⟩ := regR_succ hc (by decide) hR
    refine .of_round hsucc hc rfl rfl (.of_learn ho (hsucc.trans_lt (Nat.succ_lt_succ hlt)) (fun hp => ?_) fun hp => ?_)
    · rw [hsucc]
      exact decRound_of_decRounds (hf.firstPass ho hp)
    · obtain ⟨hT, hX⟩ := hf.secondPass ho hp
      exact ⟨hT, by rw [hsucc]; exact decRound_of_decRounds hX⟩

theorem work_worksTo {s t : State} (hi : s.Inv) (hb : s.busy = true) (h : s.work = .next t) : s.WorksTo t := by
  obtain ⟨-, hf⟩ := hi.running hb
  rcases work_cases h with ⟨-, rfl⟩ | ⟨-, rfl⟩ | ⟨ho, rfl⟩ | ⟨ho, rfl⟩ | ⟨ho, rfl⟩ | ⟨ho, rfl⟩
  · exact .of_complete (.of_pulse hi.count rfl rfl (.inl rfl)) rfl
  · exact .of_complete (.of_data hi.count rfl rfl (.inl rfl)) rfl
  · exact encryptEdge_worksTo ho hf
  · exact decryptEdge_worksTo ho hf
  · exact normlearnEdge_worksTo ho hf
  · exact reflectEdge_worksTo ho hf

/-- A command in flight run on completes within the edges it has left, and keeps the invariant. -/
theorem finish_inv_idle {n : Nat} {s t : State} (hi : s.Inv) (hn : s.busy = true → s.edgesLeft < n)
    (h : s.finish n = .next t) : t.Inv ∧ t.busy = false := by
  induction n generalizing s with
  | zero =>
    cases h
    exact ⟨hi, Bool.eq_false_iff.mpr fun hb => Nat.not_lt_zero _ (hn hb)⟩
  | succ n ih =>
    cases hb : s.busy with
    | false =>
      rw [finish_idle _ hb] at h
      cases h
      exact ⟨hi, hb⟩
    | true =>
      have hleft := hn hb
      cases hw : s.work with
      | next u =>
        rw [finish_busy n hb hw] at h
        obtain ⟨hu, hless⟩ := work_worksTo hi hb hw
        exact ih hu (fun hub => by have := hless hub; omega) h
      | fault f => cases f
      | refused r => simp [State.finish, hb, hw] at h

theorem edgesLeft_lt_finishFuel (s : State) : s.edgesLeft < finishFuel := by
  unfold State.edgesLeft finishFuel roundCount
  split <;> omega

/-! ### the step, taken apart -/

/-- All one move of the host at an idle engine can do when it answers a next state. -/
theorem moveIdle_cases {m : HostMove} {s t : State} (h : moveIdle m s = .next t) :
    t = s.quiet ∨ t = s.resetEdge ∨ ∃ i, exec i s = .next t := by
  cases m with
  | command w =>
    cases hd : decode w with
    | ok i => exact .inr (.inr ⟨i, (perform_ok s hd).symm.trans h⟩)
    | error e => cases e; simp [moveIdle, perform, hd] at h
  | abandoned w =>
    cases hd : decode w with
    | ok i => exact .inr (.inl (Host.Outcome.next.inj ((abandon_ok s hd).symm.trans h)).symm)
    | error e => cases e; simp [moveIdle, abandon, hd] at h
  | reset => cases h; exact .inr (.inl rfl)
  | idle => cases h; exact .inl rfl

/-- All a step can do when it answers a next state: the host's reset, the completion of the command in progress, or an
idle engine's move, which is a quiet cycle, a reset or one command. -/
theorem step_cases {s t : State} (h : step s = .next t) : ∃ ms,
    t = State.resetEdge { s with host := ms } ∨
    (s.busy = true ∧ s.finish finishFuel = .next t) ∨
    (s.busy = false ∧ (t = State.quiet { s with host := ms } ∨ ∃ i, exec i { s with host := ms } = .next t)) := by
  by_cases hreset : ∃ ms, s.host = .reset :: ms
  · obtain ⟨ms, hh⟩ := hreset
    rw [step_reset hh] at h
    cases h
    exact ⟨ms, .inl rfl⟩
  · rcases Bool.eq_false_or_eq_true s.busy with hb | hb
    · exact ⟨[], .inr (.inl ⟨hb, (step_busy hb fun ms hh => hreset ⟨ms, hh⟩).symm.trans h⟩)⟩
    · cases hh : s.host with
      | nil =>
        rw [step_idle_nil hb hh] at h
        cases h
        exact ⟨[], .inr (.inr ⟨hb, .inl (by rw [← hh])⟩)⟩
      | cons m ms =>
        rw [step_idle_cons hb hh] at h
        rcases moveIdle_cases h with hq | hr | hx
        · exact ⟨ms, .inr (.inr ⟨hb, .inl hq⟩)⟩
        · exact ⟨ms, .inl hr⟩
        · exact ⟨ms, .inr (.inr ⟨hb, .inr hx⟩)⟩

theorem exec_idle {i : Instr} {s t : State} (h : exec i s = .next t) : t.busy = false := by
  obtain ⟨u, r, hu, -, hb, -⟩ := exec_next i s
  cases hu.symm.trans h
  exact hb

end Sys2Proof.Machine

namespace Sys2Proof
open Sys2Proof.Machine

/-- Settles O59: an edge is a reset, a working edge of a command in flight, an idle cycle or an acceptance. -/
theorem edgeKeepsInvariant : Obligations.EdgeKeepsInvariant := by
  intro p s t hi h
  rcases edge_cases h with ⟨-, rfl⟩ | ⟨-, hb, hw⟩ | ⟨-, hb, -, rfl⟩ | ⟨i, -, -, -, -, rfl⟩
  · exact resetEdge_inv s
  · exact (work_worksTo hi hb hw).1
  · exact hi.quiet hb
  · exact accept_inv hi.count i

/-- Settles O60: a step is a reset, the completion of a command in flight, an idle cycle or one whole command. -/
theorem stepKeepsInvariant : Obligations.StepKeepsInvariant := by
  intro s t hi h
  obtain ⟨ms, rfl | ⟨-, hfin⟩ | ⟨hb, rfl | ⟨i, hx⟩⟩⟩ := step_cases h
  · exact ⟨resetEdge_inv _, rfl⟩
  · exact finish_inv_idle hi (fun _ => edgesLeft_lt_finishFuel s) hfin
  · exact ⟨(hi.with_host ms).quiet hb, hb⟩
  · exact ⟨exec_inv (hi.with_host ms).count hx, exec_idle hx⟩

/-- Settles O58: the reset state is what a reset edge leaves. -/
theorem invariantAtReset : Obligations.InvariantAtReset := resetEdge_inv State.reset

end Sys2Proof

/-! PROOFS. The key as a 64-bit view, and what each command leaves of the hidden registers. -/
namespace Sys2Proof.Machine

/-- The selector reads the concatenation of the two halves (10_state.md R21). -/
theorem keyBit_eq_getLsbD_append (hi lo : Word) (j : Nat) : keyBit hi lo j = (hi ++ lo).getLsbD j :=
  (BitVec.getLsbD_append ..).symm

theorem toNat_append_word (hi lo : Word) : (hi ++ lo).toNat = hi.toNat * 2 ^ 32 + lo.toNat := by
  rw [BitVec.toNat_append, ← Nat.shiftLeft_add_eq_or_of_lt lo.isLt, Nat.shiftLeft_eq]

theorem exec_opl {i : Instr} {s t : State} (h : exec i s = .next t) : t.opl = opcodeOf i := by
  obtain ⟨u, r, hu, -, -, -, ho, -⟩ := exec_next i s
  cases hu.symm.trans h
  exact ho

end Sys2Proof.Machine

namespace Sys2Proof
open Sys2Proof.Machine

/-- Settles O27: the key view is `KEYHI` above `KEYLO`, read bit by bit and as a number. -/
theorem keyBitReadsKeyView : Obligations.KeyBitReadsKeyView :=
  ⟨fun _ _ _ => keyBit_eq_getLsbD_append .., fun _ => toNat_append_word .., fun _ _ _ => rfl⟩

/-- Settles O41: the meaning of each command names the registers it changes, and the rest is the old state's. -/
theorem hiddenRegisterFrame : Obligations.HiddenRegisterFrame := by
  intro s
  refine ⟨?setkey, ?getkey, ?encrypt, ?decrypt, ?reflectpack, fun i t h => exec_opl h⟩
  case setkey => rintro hi lo t ⟨⟩; exact ⟨rfl, rfl, rfl⟩
  case getkey => rintro sel t ⟨⟩; exact ⟨rfl, rfl, rfl, rfl⟩
  case encrypt => rintro x t ⟨⟩; exact ⟨rfl, rfl, rfl⟩
  case decrypt => rintro x t ⟨⟩; exact ⟨rfl, rfl, rfl⟩
  case reflectpack => rintro x t ⟨⟩; exact ⟨rfl, rfl⟩

/-- Settles O47: the reset state is written out with a zero key, and it is the state the machine starts in. -/
theorem resetKeyIsZero : Obligations.ResetKeyIsZero := ⟨rfl, rfl, rfl⟩

end Sys2Proof

/-! PROOFS. The key over steps that hold no key write (10_state.md R32), and several engines that share nothing (R33). -/
namespace Sys2Proof.Machine

/-- A command presented by a host that writes no key is assigned and leaves the key (R29). -/
theorem perform_keeps_key {w : CommandWord} (s : State) (ha : (HostMove.command w).allowed = true)
    (hw : (HostMove.command w).writesKey = false) :
    ∃ t, perform w s = .next t ∧ t.busy = false ∧ t.host = s.host ∧ t.arch = s.arch := by
  obtain ⟨i, hd⟩ := decode_ok_of_assigned ha
  obtain ⟨t, r, hx, -, hb, hh, -, hkey⟩ := exec_next i s
  have hop : opOf w ≠ opSetkey ∧ opOf w ≠ opNormlearn := by simpa [HostMove.writesKey] using hw
  rw [← opcodeOf_of_decode hd] at hop
  obtain ⟨hhi, hlo⟩ := hkey hop.1 hop.2
  exact ⟨t, (perform_ok s hd).trans hx, hb, hh, Prod.ext hhi hlo⟩

theorem moveIdle_keeps_key {m : HostMove} {s : State} (hb : s.busy = false) (ha : m.allowed = true)
    (hw : m.writesKey = false) :
    ∃ t, moveIdle m s = .next t ∧ t.busy = false ∧ t.host = s.host ∧ t.arch = s.arch := by
  cases m with
  | command w => exact perform_keeps_key s ha hw
  | abandoned w => cases hw
  | reset => cases hw
  | idle => exact ⟨s.quiet, rfl, hb, rfl, rfl⟩

/-- A step of an idle engine whose coming moves write no key keeps it, and takes one move from them. -/
theorem step_keeps_key {s : State} (hb : s.busy = false) (hm : ∀ m ∈ s.host, m.allowed = true ∧ m.writesKey = false) :
    ∃ t, step s = .next t ∧ t.busy = false ∧ t.host = s.host.tail ∧ t.arch = s.arch := by
  cases hh : s.host with
  | nil => exact ⟨s.quiet, step_idle_nil hb hh, hb, hh, rfl⟩
  | cons m ms =>
    rw [step_idle_cons hb hh]
    obtain ⟨ha, hw⟩ := hm m (hh ▸ List.mem_cons_self)
    exact moveIdle_keeps_key (s := { s with host := ms }) hb ha hw

/-- A step among several engines is one step of the engine chosen, put back in its place. -/
theorem stepInstance_eq_next {n : Nat} {k : Fin n} {es fs : Vector State n} :
    stepInstance k es = .next fs ↔ ∃ t, step es[k] = .next t ∧ fs = es.set k t := by
  unfold stepInstance
  cases step es[k] <;> simp [eq_comm]

end Sys2Proof.Machine

namespace Sys2Proof
open Sys2Proof.Machine

/-- Settles O42, by induction on the number of steps: the moves left after a step write no key either. -/
theorem keyPersists : Obligations.KeyPersists := by
  intro n
  induction n with
  | zero => exact fun s _ _ => ⟨s, [], rfl, rfl⟩
  | succ n ih =>
    intro s hb hm
    obtain ⟨t, hstep, htb, hth, hkey⟩ := step_keeps_key hb hm
    obtain ⟨u, rs, hrun, hkey'⟩ := ih t htb fun m h => hm m (List.mem_of_mem_tail (hth ▸ h))
    exact ⟨u, _, runSteps_succ hstep hrun, hkey'.trans hkey⟩

/-- Settles O45: a step of one engine writes its own place of the vector and reads no other. -/
theorem instancesShareNothing : Obligations.InstancesShareNothing := by
  constructor
  · intro n k es fs h
    obtain ⟨t, ht, rfl⟩ := stepInstance_eq_next.mp h
    exact ⟨by simpa using ht, fun j hj => Vector.getElem_set_ne _ _ (Fin.val_ne_of_ne hj.symm)⟩
  · intro n j k es fs gs hne hj hk
    obtain ⟨t, ht, rfl⟩ := stepInstance_eq_next.mp hj
    obtain ⟨u, hu, rfl⟩ := stepInstance_eq_next.mp hk
    have hjk : (j : Nat) ≠ k := Fin.val_ne_of_ne hne
    have hk' : (es.set j t)[k] = es[k] := Vector.getElem_set_ne _ _ hjk
    have hj' : (es.set k u)[j] = es[j] := Vector.getElem_set_ne _ _ hjk.symm
    exact ⟨es.set k u, stepInstance_eq_next.mpr ⟨u, hk' ▸ hu, rfl⟩,
      stepInstance_eq_next.mpr ⟨t, hj'.symm ▸ ht, Vector.set_comm t u hjk⟩⟩

end Sys2Proof

/-! PROOFS. Hidden registers carry nothing from one command to the next (10_state.md R28). At the command level two idle
states alike in all else stay so. At the clock level they are, while a command runs, alike also in the hidden registers that
the command reads; the relation `SameRun` says which. -/
namespace Sys2Proof.Machine

/-! ### outcomes alike -/

/-- Two outcomes alike are two related next states or one refusal; there is no fault (60_exceptions.md R130). -/
theorem alike_iff {σ : Type} {rel : σ → σ → Prop} {o p : Host.Outcome σ Fault Refusal} :
    Alike rel o p ↔ (∃ s t, o = .next s ∧ p = .next t ∧ rel s t) ∨ ∃ r, o = .refused r ∧ p = .refused r := by
  cases o with
  | next s => cases p <;> simp [Alike]
  | fault f => cases f
  | refused r => cases p <;> simp [Alike, eq_comm]

theorem alike_refused {σ : Type} {rel : σ → σ → Prop} {o p : Host.Outcome σ Fault Refusal} {r : Refusal}
    (ho : o = .refused r) (hp : p = .refused r) : Alike rel o p := alike_iff.mpr (.inr ⟨r, ho, hp⟩)

theorem alike_next {σ : Type} {rel : σ → σ → Prop} {o p : Host.Outcome σ Fault Refusal} {s t : σ}
    (ho : o = .next s) (hp : p = .next t) (h : rel s t) : Alike rel o p := alike_iff.mpr (.inl ⟨s, t, ho, hp, h⟩)

/-! ### steps -/

/-- Two idle engines alike from outside. -/
def State.SameIdle (s t : State) : Prop := s.SameButHidden t ∧ s.busy = false

theorem State.SameButHidden.quiet {s t : State} (h : s.SameButHidden t) : s.quiet.SameButHidden t.quiet := by
  obtain ⟨hhi, hlo, hb, -, hh⟩ := h
  exact ⟨hhi, hlo, hb, rfl, hh⟩

theorem State.SameButHidden.resetEdge {s t : State} (h : s.SameButHidden t) :
    s.resetEdge.SameButHidden t.resetEdge := by
  obtain ⟨-, -, -, -, hh⟩ := h
  exact ⟨rfl, rfl, rfl, rfl, hh⟩

theorem State.SameButHidden.with_host {s t : State} (h : s.SameButHidden t) (ms : List HostMove) :
    State.SameButHidden { s with host := ms } { t with host := ms } := by
  obtain ⟨hhi, hlo, hb, hr, -⟩ := h
  exact ⟨hhi, hlo, hb, hr, rfl⟩

/-- A command reads the key alone, so alike states have the same response and stay alike. -/
theorem exec_alike (i : Instr) {s t : State} (h : s.SameButHidden t) :
    Alike State.SameIdle (exec i s) (exec i t) := by
  obtain ⟨hhi, hlo, -, -, hh⟩ := h
  obtain ⟨u, v, hu, hv, hr, hhi', hlo'⟩ := exec_of_same_key i hhi hlo
  obtain ⟨u', _, hu', -, hub, huh, -⟩ := exec_next i s
  obtain ⟨v', _, hv', -, hvb, hvh, -⟩ := exec_next i t
  cases hu.symm.trans hu'
  cases hv.symm.trans hv'
  exact alike_next hu hv ⟨⟨hhi', hlo', hub.trans hvb.symm, hr, huh.trans (hh.trans hvh.symm)⟩, hub⟩

theorem moveIdle_alike (m : HostMove) {s t : State} (h : s.SameIdle t) :
    Alike State.SameIdle (moveIdle m s) (moveIdle m t) := by
  obtain ⟨hsame, hb⟩ := h
  cases m with
  | command w =>
    cases hd : decode w with
    | ok i =>
      simp only [moveIdle, perform_ok _ hd]
      exact exec_alike i hsame
    | error e =>
      cases e
      simp [moveIdle, perform, hd, Alike]
  | abandoned w =>
    cases hd : decode w with
    | ok i => exact alike_next (abandon_ok s hd) (abandon_ok t hd) ⟨hsame.resetEdge, rfl⟩
    | error e =>
      cases e
      simp [moveIdle, abandon, hd, Alike]
  | reset => exact ⟨hsame.resetEdge, rfl⟩
  | idle => exact ⟨hsame.quiet, hb⟩

theorem step_alike {s t : State} (h : s.SameIdle t) : Alike State.SameIdle (step s) (step t) := by
  obtain ⟨hsame, hb⟩ := h
  have ⟨_, _, hbusy, _, hhost⟩ := hsame
  have hb' : t.busy = false := hbusy.symm.trans hb
  cases hh : s.host with
  | nil => exact alike_next (step_idle_nil hb hh) (step_idle_nil hb' (hhost ▸ hh)) ⟨hsame.quiet, hb⟩
  | cons m ms =>
    rw [step_idle_cons hb hh, step_idle_cons hb' (hhost ▸ hh)]
    exact moveIdle_alike m ⟨hsame.with_host ms, hb⟩

/-- Two runs of steps, each with the responses it gave, alike from outside. -/
def SameRuns (a b : State × List Response) : Prop := a.1.SameButHidden b.1 ∧ a.2 = b.2

theorem runSteps_refused {n : Nat} {s : State} {r : Refusal} (h : step s = .refused r) :
    runSteps (n + 1) s = .refused r := by
  simp only [runSteps, h]

theorem runSteps_refused_later {n : Nat} {s t : State} {r : Refusal} (h : step s = .next t)
    (ht : runSteps n t = .refused r) : runSteps (n + 1) s = .refused r := by
  simp only [runSteps, h, ht]

theorem runSteps_alike (n : Nat) {s t : State} (h : s.SameIdle t) :
    Alike SameRuns (runSteps n s) (runSteps n t) := by
  induction n generalizing s t with
  | zero =>
    obtain ⟨hsame, -⟩ := h
    exact ⟨hsame, rfl⟩
  | succ n ih =>
    rcases alike_iff.mp (step_alike h) with ⟨u, v, hu, hv, hsame⟩ | ⟨r, hs, ht⟩
    · have ⟨⟨_, _, _, hr, _⟩, _⟩ := hsame
      rcases alike_iff.mp (ih hsame) with ⟨⟨u', rs⟩, ⟨v', qs⟩, hu', hv', hend, hrs⟩ | ⟨r, hs, ht⟩
      · exact alike_next (runSteps_succ hu hu') (runSteps_succ hv hv')
          ⟨hend, congrArg₂ (fun (a : Option Response) bs => a.toList ++ bs) hr hrs⟩
      · exact alike_refused (runSteps_refused_later hu hs) (runSteps_refused_later hv ht)
    · exact alike_refused (runSteps_refused hs) (runSteps_refused ht)

/-! ### clock edges -/

/-- The hidden registers that the command in progress still reads hold the same: `X` for all, `R` where rounds are counted,
`T` where it holds an operand, the accumulator or the derived low half, and `S` and `PASS` for NORMLEARN (R27). -/
structure State.SameHiddenRead (s t : State) : Prop where
  assigned : s.opl.toNat ≤ 5
  opl : s.opl = t.opl
  regX : s.regX = t.regX
  regR : s.opl = opEncrypt ∨ s.opl = opDecrypt ∨ s.opl = opNormlearn ∨ s.opl = opReflectpack → s.regR = t.regR
  regT : s.opl = opSetkey ∨ s.opl = opReflectpack ∨ (s.opl = opNormlearn ∧ s.pass = true) → s.regT = t.regT
  learn : s.opl = opNormlearn → s.regS = t.regS ∧ s.pass = t.pass

/-- Two engines alike from outside and, while a command runs, in the hidden registers it still reads. -/
def State.SameRun (s t : State) : Prop := s.SameButHidden t ∧ (s.busy = true → s.SameHiddenRead t)

theorem State.SameRun.of_idle {s t : State} (h : s.SameButHidden t) (hb : s.busy = false) : s.SameRun t :=
  ⟨h, fun hb' => by simp [hb] at hb'⟩

/-- The accepting edge loads every hidden register that the command reads before it writes it. -/
theorem accept_sameRun (i : Instr) {s t : State} (h : s.SameButHidden t) : (s.accept i).SameRun (t.accept i) := by
  obtain ⟨hhi, hlo, -, -, hh⟩ := h
  refine ⟨⟨by simp [hhi], by simp [hlo], by simp, by simp, by simp [hh]⟩, fun _ => ?_⟩
  refine ⟨(accept_inFlight i s).assigned, by simp, by cases i <;> rfl, ?regR, ?regT, ?learn⟩
  -- A register either is loaded, with the same word on both sides, or is not read by the command of this opcode.
  all_goals cases i <;>
    simp [State.load, opcodeOf, canonicalFields, opSetkey, opGetkey, opEncrypt, opDecrypt, opNormlearn, opReflectpack]

theorem opcode_of_assigned : ∀ op : Opcode, op.toNat ≤ 5 → op = opSetkey ∨ op = opGetkey ∨ op = opEncrypt ∨
    op = opDecrypt ∨ op = opNormlearn ∨ op = opReflectpack := by decide

/-- A round that puts the same word into `X` on both sides, the command going on. -/
theorem State.SameRun.of_round {s t : State} {x y : Word} (h : s.SameButHidden t) (hr : s.SameHiddenRead t)
    (hxy : x = y) (hR : s.regR = t.regR) :
    State.SameRun { s.quiet with regX := x, regR := s.regR + 1#10 }
      { t.quiet with regX := y, regR := t.regR + 1#10 } :=
  ⟨h.quiet, fun _ => ⟨hr.assigned, hr.opl, hxy, fun _ => congrArg (· + 1#10) hR, hr.regT, hr.learn⟩⟩

/-- A command completes with the same response on both sides, and with the same key. -/
theorem State.SameRun.of_complete {s t : State} {op : Opcode} {r q : Response} (hrq : r = q)
    (hhi : s.keyHi = t.keyHi) (hlo : s.keyLo = t.keyLo) (hh : s.host = t.host) :
    (s.complete op r).SameRun (t.complete op q) :=
  .of_idle ⟨hhi, hlo, rfl, congrArg some hrq, hh⟩ rfl

theorem encryptEdge_sameRun {s t : State} (h : s.SameButHidden t) (hr : s.SameHiddenRead t) (ho : s.opl = opEncrypt) :
    s.encryptEdge.SameRun t.encryptEdge := by
  have ⟨hhi, hlo, _, _, hh⟩ := h
  have hX := hr.regX
  have hR := hr.regR (.inl ho)
  by_cases hlast : s.regR = 527#10
  · rw [encryptEdge_last hlast, encryptEdge_last (hR ▸ hlast)]
    exact .of_complete (by rw [hX, hhi, hlo]) hhi hlo hh
  · rw [encryptEdge_mid hlast, encryptEdge_mid (hR ▸ hlast)]
    exact .of_round h hr (by rw [hX, hhi, hlo, hR]) hR

theorem decryptEdge_sameRun {s t : State} (h : s.SameButHidden t) (hr : s.SameHiddenRead t) (ho : s.opl = opDecrypt) :
    s.decryptEdge.SameRun t.decryptEdge := by
  have ⟨hhi, hlo, _, _, hh⟩ := h
  have hX := hr.regX
  have hR := hr.regR (.inr (.inl ho))
  by_cases hlast : s.regR = 527#10
  · rw [decryptEdge_last hlast, decryptEdge_last (hR ▸ hlast)]
    exact .of_complete (by rw [hX, hhi, hlo]) hhi hlo hh
  · rw [decryptEdge_mid hlast, decryptEdge_mid (hR ▸ hlast)]
    exact .of_round h hr (by rw [hX, hhi, hlo, hR]) hR

theorem normlearnEdge_sameRun {s t : State} (h : s.SameButHidden t) (hr : s.SameHiddenRead t)
    (ho : s.opl = opNormlearn) : s.normlearnEdge.SameRun t.normlearnEdge := by
  have ⟨hhi, hlo, _, _, hh⟩ := h
  have hX := hr.regX
  have hR := hr.regR (.inr (.inr (.inl ho)))
  obtain ⟨hS, hpass⟩ := hr.learn ho
  have round (n : Nat) : decRound s.regX (keyBit s.keyHi s.keyLo (kd n)) =
      decRound t.regX (keyBit t.keyHi t.keyLo (kd n)) := by rw [hX, hhi, hlo]
  by_cases hlast : s.regR = 527#10
  · cases hp : s.pass with
    | false =>
      rw [normlearnEdge_turn hlast hp, normlearnEdge_turn (hR ▸ hlast) (hpass ▸ hp)]
      have seed : 0b0110#4 ++ s.regS = 0b0110#4 ++ t.regS := by rw [hS]
      exact ⟨h.quiet, fun _ => ⟨hr.assigned, hr.opl, seed, fun _ => rfl, fun _ => round 527, fun _ => ⟨hS, rfl⟩⟩⟩
    | true =>
      rw [normlearnEdge_last hlast hp, normlearnEdge_last (hR ▸ hlast) (hpass ▸ hp)]
      exact .of_complete rfl (round 527) (hr.regT (.inr (.inr ⟨ho, hp⟩))) hh
  · rw [normlearnEdge_mid hlast, normlearnEdge_mid (hR ▸ hlast)]
    exact .of_round h hr (hR ▸ round s.regR.toNat) hR

theorem reflectEdge_sameRun {s t : State} (h : s.SameButHidden t) (hr : s.SameHiddenRead t)
    (ho : s.opl = opReflectpack) : s.reflectEdge.SameRun t.reflectEdge := by
  have ⟨hhi, hlo, _, _, hh⟩ := h
  have hX := hr.regX
  have hT := hr.regT (.inr (.inl ho))
  have hR := hr.regR (.inr (.inr (.inr ho)))
  have shifted : (s.regT <<< 1) ||| bitWord (s.regX.getLsbD 0) = (t.regT <<< 1) ||| bitWord (t.regX.getLsbD 0) := by
    rw [hX, hT]
  have halved : s.regX >>> 1 = t.regX >>> 1 := by rw [hX]
  by_cases hlast : s.regR = 31#10
  · rw [reflectEdge_last hlast, reflectEdge_last (hR ▸ hlast)]
    exact .of_complete (congrArg _ shifted) hhi hlo hh
  · rw [reflectEdge_mid hlast, reflectEdge_mid (hR ▸ hlast)]
    exact ⟨h.quiet, fun _ => ⟨hr.assigned, hr.opl, halved, fun _ => congrArg (· + 1#10) hR,
      fun _ => shifted, hr.learn⟩⟩

theorem work_alike {s t : State} (h : s.SameButHidden t) (hr : s.SameHiddenRead t) :
    Alike State.SameRun s.work t.work := by
  have ⟨hhi, hlo, _, _, hh⟩ := h
  have hX := hr.regX
  have same := hr.opl
  rcases opcode_of_assigned s.opl hr.assigned with ho | ho | ho | ho | ho | ho
  · exact alike_next (work_setkey ho) (work_setkey (same ▸ ho)) (.of_complete rfl hX (hr.regT (.inl ho)) hh)
  · exact alike_next (work_getkey ho) (work_getkey (same ▸ ho)) (.of_complete (by rw [hX, hhi, hlo]) hhi hlo hh)
  · exact alike_next (work_encrypt ho) (work_encrypt (same ▸ ho)) (encryptEdge_sameRun h hr ho)
  · exact alike_next (work_decrypt ho) (work_decrypt (same ▸ ho)) (decryptEdge_sameRun h hr ho)
  · exact alike_next (work_normlearn ho) (work_normlearn (same ▸ ho)) (normlearnEdge_sameRun h hr ho)
  · exact alike_next (work_reflectpack ho) (work_reflectpack (same ▸ ho)) (reflectEdge_sameRun h hr ho)

theorem edge_alike (p : Pins) {s t : State} (h : s.SameRun t) : Alike State.SameRun (edge p s) (edge p t) := by
  obtain ⟨hsame, hread⟩ := h
  have ⟨_, _, hbusy, _, _⟩ := hsame
  cases hp : p.rst with
  | true => exact alike_next (edge_reset s hp) (edge_reset t hp) (.of_idle hsame.resetEdge rfl)
  | false =>
    cases hb : s.busy with
    | true =>
      rw [edge_busy hp hb, edge_busy hp (hbusy ▸ hb)]
      exact work_alike hsame (hread hb)
    | false =>
      have hb' : t.busy = false := hbusy ▸ hb
      cases hv : p.cmdValid with
      | false => exact alike_next (edge_idle hp hv hb) (edge_idle hp hv hb') (.of_idle hsame.quiet hb)
      | true =>
        cases hd : decode p.word with
        | ok i => exact alike_next (edge_accept hp hv hb hd) (edge_accept hp hv hb' hd) (accept_sameRun i hsame)
        | error e =>
          cases e
          exact alike_refused (edge_reserved hp hv hb hd) (edge_reserved hp hv hb' hd)

/-- What the outside sees of an engine is no hidden register. -/
theorem State.SameButHidden.view_eq {s t : State} (h : s.SameButHidden t) : s.view = t.view := by
  obtain ⟨hhi, hlo, hb, hr, -⟩ := h
  simp [State.view, State.cmdReady, hhi, hlo, hb, hr]

theorem edges_alike (ps : List Pins) {s t : State} (h : s.SameRun t) :
    Alike (fun a b => a.view = b.view) (edges ps s) (edges ps t) := by
  induction ps generalizing s t with
  | nil =>
    obtain ⟨hsame, -⟩ := h
    exact hsame.view_eq
  | cons p ps ih =>
    rcases alike_iff.mp (edge_alike p h) with ⟨u, v, hu, hv, hnext⟩ | ⟨r, hs, ht⟩
    · rw [edges_cons_of_next ps hu, edges_cons_of_next ps hv]
      exact ih hnext
    · exact alike_refused (edges_cons_of_refused ps hs) (edges_cons_of_refused ps ht)

end Sys2Proof.Machine

namespace Sys2Proof
open Sys2Proof.Machine

/-- Settles O46: steps keep idle states alike from outside, and edges keep them so with what a running command reads. -/
theorem hiddenStateCarriesNothing : Obligations.HiddenStateCarriesNothing :=
  fun _ _ h hb => ⟨fun n => runSteps_alike n ⟨h, hb⟩, fun ps => edges_alike ps (.of_idle h hb)⟩

end Sys2Proof

/-! PROOFS. Runs of commands and of steps (20_memory.md R45, R47, R50, R52): a host that keeps to the host table is never
stopped, every command answers, and what a command answers depends on the key alone. -/
namespace Sys2Proof.Machine

/-! ### commands -/

theorem exec_keeps_arch {i : Instr} {s t : State} (hw : commandWritesKey i = false) (h : exec i s = .next t) :
    t.arch = s.arch := by
  cases i with
  | setkey hi lo => cases hw
  | normlearn serial => cases hw
  | _ => cases h; rfl

/-- The response of a command and the key it leaves are the same from two states that hold the same key. -/
theorem exec_of_same_arch (i : Instr) {s s' : State} (h : s.arch = s'.arch) :
    ∃ t t', exec i s = .next t ∧ exec i s' = .next t' ∧ t.rsp = t'.rsp ∧ t.arch = t'.arch := by
  obtain ⟨hhi, hlo⟩ := Prod.ext_iff.mp h
  obtain ⟨t, t', ht, ht', hr, hhi', hlo'⟩ := exec_of_same_key i hhi hlo
  exact ⟨t, t', ht, ht', hr, Prod.ext hhi' hlo'⟩

/-- Every command but NORMLEARN, executed again, gives the same response and leaves the same key: SETKEY writes the same
operands, and the four that write no key read the key they read before (R45). -/
theorem exec_twice {i : Instr} (s : State) (hn : ∀ serial, i ≠ .normlearn serial) :
    ∃ t u, exec i s = .next t ∧ exec i t = .next u ∧ u.rsp = t.rsp ∧ u.arch = t.arch := by
  cases hw : commandWritesKey i with
  | true =>
    cases i with
    | setkey hi lo => exact ⟨_, _, rfl, rfl, rfl, rfl⟩
    | normlearn serial => exact absurd rfl (hn serial)
    | _ => cases hw
  | false =>
    obtain ⟨t, -, ht, -⟩ := exec_next i s
    obtain ⟨u, t', hu, ht', hr, harch⟩ := exec_of_same_arch i (exec_keeps_arch hw ht)
    cases ht.symm.trans ht'
    exact ⟨t, u, ht, hu, hr, harch⟩

/-- The high half that NORMLEARN 0 derives from the zero key, and the one it derives next, are not the same. -/
theorem derivedHi_twice_ne : derivedHi (derivedHi 0#32 0#32 0#32) (derivedLo 0#32 0#32 0#32) 0#32 ≠
    derivedHi 0#32 0#32 0#32 := by decide +kernel

/-! ### steps -/

theorem moveIdle_of_allowed {m : HostMove} {s : State} (hb : s.busy = false) (ha : m.allowed = true) :
    ∃ t, moveIdle m s = .next t ∧ t.busy = false ∧ t.host = s.host := by
  cases m with
  | command w =>
    obtain ⟨i, hd⟩ := decode_ok_of_assigned ha
    obtain ⟨t, -, hx, -, htb, hth, -⟩ := exec_next i s
    exact ⟨t, (perform_ok s hd).trans hx, htb, hth⟩
  | abandoned w =>
    obtain ⟨i, hd⟩ := decode_ok_of_assigned ha
    exact ⟨s.resetEdge, abandon_ok s hd, rfl, rfl⟩
  | reset => exact ⟨s.resetEdge, rfl, rfl, rfl⟩
  | idle => exact ⟨s.quiet, rfl, hb, rfl⟩

/-- A step of an idle engine whose host keeps to the host table takes one move from the list and leaves the engine idle. -/
theorem step_of_allowed {s : State} (hb : s.busy = false) (hm : ∀ m ∈ s.host, m.allowed = true) :
    ∃ t, step s = .next t ∧ t.busy = false ∧ t.host = s.host.tail := by
  cases hh : s.host with
  | nil => exact ⟨s.quiet, step_idle_nil hb hh, hb, hh⟩
  | cons m ms =>
    rw [step_idle_cons hb hh]
    exact moveIdle_of_allowed (s := { s with host := ms }) hb (hm m (hh ▸ List.mem_cons_self))

end Sys2Proof.Machine

namespace Sys2Proof
open Sys2Proof.Machine

/-- Settles O13, by induction on the number of steps: the moves left after a step are allowed too. -/
theorem allowedMovesNeverStop : Obligations.AllowedMovesNeverStop := by
  intro n
  induction n with
  | zero => exact fun s hb _ => ⟨s, [], rfl, hb⟩
  | succ n ih =>
    intro s hb hm
    obtain ⟨t, hstep, htb, hth⟩ := step_of_allowed hb hm
    obtain ⟨u, rs, hrun, hub⟩ := ih t htb fun m h => hm m (List.mem_of_mem_tail (hth ▸ h))
    exact ⟨u, _, runSteps_succ hstep hrun, hub⟩

/-- Settles O14, by induction on the list of commands. -/
theorem commandsTakeEffectInOrder : Obligations.CommandsTakeEffectInOrder := by
  intro is i
  induction is with
  | nil =>
    intro s
    obtain ⟨u, r, hx, hr, -⟩ := exec_next i s
    exact ⟨s, [], u, r, rfl, rfl, hx, hr, runCommands_cons hx hr rfl⟩
  | cons j is ih =>
    intro s
    obtain ⟨v, q, hj, hq, -⟩ := exec_next j s
    obtain ⟨t, rs, u, r, hrun, hlen, hx, hr, hall⟩ := ih v
    exact ⟨t, q :: rs, u, r, runCommands_cons hj hq hrun, congrArg (· + 1) hlen, hx, hr, runCommands_cons hj hq hall⟩

/-- Settles O43: five commands repeat themselves; NORMLEARN derives again, and from the zero key to another key. -/
theorem commandsAreIdempotent : Obligations.CommandsAreIdempotent := by
  refine ⟨fun i s => ?twice, fun serial s => ⟨_, _, rfl, rfl, rfl, rfl⟩, State.reset, 0#32, _, _, rfl, rfl, ?differ⟩
  case twice =>
    obtain ⟨t, -, ht, -⟩ := exec_next i s
    obtain ⟨u, -, hu, -⟩ := exec_next i t
    refine ⟨t, u, ht, hu, fun hw => exec_keeps_arch hw ht, fun hn => ?_⟩
    obtain ⟨t', u', ht', hu', hsame⟩ := exec_twice s hn
    cases ht.symm.trans ht'
    cases hu.symm.trans hu'
    exact hsame
  case differ => exact fun h => derivedHi_twice_ne (congrArg Prod.fst h)

/-- Settles O44: the command that writes no key leaves the key that the other command reads. -/
theorem pureCommandsInterleaveFreely : Obligations.PureCommandsInterleaveFreely := by
  intro i j s hw
  obtain ⟨t, -, ht, -⟩ := exec_next i s
  obtain ⟨u, v, hu, hv, hsame⟩ := exec_of_same_arch j (exec_keeps_arch hw ht)
  exact ⟨t, u, v, ht, hu, hv, hsame⟩

end Sys2Proof

/-! PROOFS. The response port and the key over one clock edge (20_memory.md R44, R48). -/
namespace Sys2Proof.Machine

theorem encryptEdge_arch (s : State) : s.encryptEdge.arch = s.arch := by
  by_cases h : s.regR = 527#10
  · rw [encryptEdge_last h]; rfl
  · rw [encryptEdge_mid h]; rfl

theorem decryptEdge_arch (s : State) : s.decryptEdge.arch = s.arch := by
  by_cases h : s.regR = 527#10
  · rw [decryptEdge_last h]; rfl
  · rw [decryptEdge_mid h]; rfl

theorem reflectEdge_arch (s : State) : s.reflectEdge.arch = s.arch := by
  by_cases h : s.regR = 31#10
  · rw [reflectEdge_last h]; rfl
  · rw [reflectEdge_mid h]; rfl

/-- Of the working edges of NORMLEARN only the completing one writes the key (42_key_derivation.md R115). -/
theorem normlearnEdge_arch (s : State) : s.normlearnEdge.arch = s.arch ∨
    (s.normlearnEdge.busy = false ∧ s.normlearnEdge.rsp = some .void) := by
  by_cases h : s.regR = 527#10
  · cases hp : s.pass with
    | false => rw [normlearnEdge_turn h hp]; exact .inl rfl
    | true => rw [normlearnEdge_last h hp]; exact .inr ⟨rfl, rfl⟩
  · rw [normlearnEdge_mid h]; exact .inl rfl

/-- A working edge leaves the key, or completes a SETKEY or a NORMLEARN. -/
theorem work_arch {s t : State} (h : s.work = .next t) :
    t.arch = s.arch ∨ (t.busy = false ∧ t.rsp = some .void ∧ (s.opl = opSetkey ∨ s.opl = opNormlearn)) := by
  rcases work_cases h with ⟨ho, rfl⟩ | ⟨-, rfl⟩ | ⟨-, rfl⟩ | ⟨-, rfl⟩ | ⟨ho, rfl⟩ | ⟨-, rfl⟩
  · exact .inr ⟨rfl, rfl, .inl ho⟩
  · exact .inl rfl
  · exact .inl (encryptEdge_arch s)
  · exact .inl (decryptEdge_arch s)
  · exact (normlearnEdge_arch s).imp_right fun ⟨hb, hr⟩ => ⟨hb, hr, .inr ho⟩
  · exact .inl (reflectEdge_arch s)

end Sys2Proof.Machine

namespace Sys2Proof
open Sys2Proof.Machine

/-- Settles O54: the edges of an idle engine leave no response, and a working edge reads no pin but `rst`. -/
theorem responsePulseLastsOneCycle : Obligations.ResponsePulseLastsOneCycle := by
  constructor
  · intro p s t hb h
    rcases edge_cases h with ⟨-, rfl⟩ | ⟨-, hb', -⟩ | ⟨-, -, -, rfl⟩ | ⟨i, -, -, -, -, rfl⟩
    · rfl
    · exact absurd (hb.symm.trans hb') nofun
    · rfl
    · rw [State.rspValid, State.accept_rsp]; rfl
  · intro p q s hb hp hq
    rw [edge_busy hp hb, edge_busy hq hb]

/-- Settles O55: of the kinds of edge only a reset and a completing working edge write the key. -/
theorem keyWrittenOnlyAtCompletion : Obligations.KeyWrittenOnlyAtCompletion := by
  intro p s t h
  rcases edge_cases h with ⟨hr, rfl⟩ | ⟨-, hb, hw⟩ | ⟨-, -, -, rfl⟩ | ⟨i, -, -, -, -, rfl⟩
  · exact .inr (.inl ⟨hr, rfl⟩)
  · exact (work_arch hw).imp_right fun hdone => .inr ⟨hb, hdone⟩
  · exact .inl rfl
  · exact .inl (Prod.ext (State.accept_keyHi ..) (State.accept_keyLo ..))

end Sys2Proof

/-! PROOFS. The host's duties over any edges (20_memory.md R50): what the check refuses, that the edges of a host that keeps
its duties are the engine's own, and that these edges answer. -/
namespace Sys2Proof.Machine

/-! ### the check at one edge -/

@[simp] theorem Pins.opOf_word (p : Pins) : opOf p.word = p.cmdOp := opOf_wordOf _

theorem hostEdge_reserved {p : Pins} (offered : Option CommandWord) (s : State) (hv : p.cmdValid = true)
    (ho : p.cmdOp = 6#3 ∨ p.cmdOp = 7#3) : hostEdge offered p s = .refused (.reservedOpcode p.cmdOp) := by
  have hd : decode p.word = .error (.reserved p.cmdOp) := by
    rw [decode_error_iff, Pins.opOf_word]
    rcases ho with ho | ho <;> simp [ho]
  simp only [hostEdge, hv, hd, if_true]

theorem hostEdge_unstable {p : Pins} {v : CommandWord} (s : State) (hv : p.cmdValid = true)
    (ha : (fieldsOf p.word).assigned = true) (hne : v ≠ p.word) : hostEdge (some v) p s = .refused .unstableCommand := by
  obtain ⟨i, hd⟩ := decode_ok_of_assigned ha
  simp [hostEdge, hv, hd, hne]

/-- The check does nothing but refuse. -/
theorem edge_of_hostEdge {offered : Option CommandWord} {p : Pins} {s t : State}
    (h : hostEdge offered p s = .next t) : edge p s = .next t := by
  unfold hostEdge at h
  split at h
  · split at h
    · cases h
    · split at h
      · exact h
      · cases h
  · exact h

theorem stillOffered_eq (p : Pins) (s : State) :
    stillOffered p s = if p.cmdValid = true ∧ s.cmdReady p.rst = false then some p.word else none := by
  simp [stillOffered]

theorem stillOffered_of_not_ready {p : Pins} {s : State} (hv : p.cmdValid = true) (hr : s.cmdReady p.rst = false) :
    stillOffered p s = some p.word := by
  simp [stillOffered, hv, hr]

/-! ### a host that keeps to its duties -/

/-- A lawful host's first edge is the engine's own, and the host goes on lawfully from what that edge leaves presented. -/
theorem HostLawful.cons {kept : Option CommandWord} {p : Pins} {ps : List Pins} {s : State}
    (h : HostLawful kept (p :: ps) s) : hostEdge kept p s = edge p s ∧
    ∀ t, edge p s = .next t → HostLawful (stillOffered p s) ps t := by
  obtain ⟨hduty, hrest⟩ := h
  exact ⟨hostEdge_of_lawful s hduty, stillOffered_eq p s ▸ hrest⟩

/-- After edges at which a lawful host's engine answers, the check goes on from the state reached, with some word kept. -/
theorem HostLawful.append {kept : Option CommandWord} {qs rs : List Pins} {s u : State}
    (h : HostLawful kept (qs ++ rs) s) (hu : edges qs s = .next u) :
    ∃ kept', HostLawful kept' rs u ∧ ∀ ps, hostEdges kept (qs ++ ps) s = hostEdges kept' ps u := by
  induction qs generalizing kept s with
  | nil => cases hu; exact ⟨kept, h, fun _ => rfl⟩
  | cons q qs ih =>
    obtain ⟨hown, hrest⟩ := h.cons
    cases he : edge q s with
    | next t =>
      rw [edges_cons_of_next qs he] at hu
      obtain ⟨kept', hlaw, hgo⟩ := ih (hrest t he) hu
      refine ⟨kept', hlaw, fun ps => ?_⟩
      rw [List.cons_append, hostEdges_cons_of_next _ (hown.trans he), hgo]
    | fault f => cases f
    | refused r => rw [edges_cons_of_refused qs he] at hu; cases hu

theorem HostLawful.hostEdges_eq {kept : Option CommandWord} {ps : List Pins} {s : State} (h : HostLawful kept ps s) :
    hostEdges kept ps s = edges ps s := by
  induction ps generalizing kept s with
  | nil => rfl
  | cons p ps ih =>
    obtain ⟨hown, hrest⟩ := h.cons
    cases he : edge p s with
    | next t => rw [hostEdges_cons_of_next ps (hown.trans he), edges_cons_of_next ps he, ih (hrest t he)]
    | fault f => cases f
    | refused r => rw [hostEdges_cons_of_refused ps (hown.trans he), edges_cons_of_refused ps he]

/-! ### progress -/

/-- A command in progress is one of the six. -/
def State.RunsAssigned (s : State) : Prop := s.busy = true → s.opl.toNat ≤ 5

theorem State.RunsAssigned.of_idle {s : State} (h : s.busy = false) : s.RunsAssigned :=
  fun hb => absurd (h.symm.trans hb) nofun

theorem encryptEdge_opl {s : State} (ho : s.opl = opEncrypt) : s.encryptEdge.opl = s.opl := by
  by_cases h : s.regR = 527#10
  · rw [encryptEdge_last h]; exact ho.symm
  · rw [encryptEdge_mid h]; rfl

theorem decryptEdge_opl {s : State} (ho : s.opl = opDecrypt) : s.decryptEdge.opl = s.opl := by
  by_cases h : s.regR = 527#10
  · rw [decryptEdge_last h]; exact ho.symm
  · rw [decryptEdge_mid h]; rfl

theorem normlearnEdge_opl {s : State} (ho : s.opl = opNormlearn) : s.normlearnEdge.opl = s.opl := by
  by_cases h : s.regR = 527#10
  · cases hp : s.pass with
    | false => rw [normlearnEdge_turn h hp]; rfl
    | true => rw [normlearnEdge_last h hp]; exact ho.symm
  · rw [normlearnEdge_mid h]; rfl

theorem reflectEdge_opl {s : State} (ho : s.opl = opReflectpack) : s.reflectEdge.opl = s.opl := by
  by_cases h : s.regR = 31#10
  · rw [reflectEdge_last h]; exact ho.symm
  · rw [reflectEdge_mid h]; rfl

/-- The working edge of one of the six commands answers, and `OPL` keeps the opcode. -/
theorem work_of_assigned {s : State} (h : s.opl.toNat ≤ 5) : ∃ t, s.work = .next t ∧ t.opl = s.opl := by
  rcases opcode_of_assigned s.opl h with ho | ho | ho | ho | ho | ho
  · exact ⟨_, work_setkey ho, ho.symm⟩
  · exact ⟨_, work_getkey ho, ho.symm⟩
  · exact ⟨_, work_encrypt ho, encryptEdge_opl ho⟩
  · exact ⟨_, work_decrypt ho, decryptEdge_opl ho⟩
  · exact ⟨_, work_normlearn ho, normlearnEdge_opl ho⟩
  · exact ⟨_, work_reflectpack ho, reflectEdge_opl ho⟩

/-- An edge at which no reserved word is presented answers, and a command in progress after it is one of the six. -/
theorem edge_of_assigned {p : Pins} {s : State} (hs : s.RunsAssigned)
    (ha : p.cmdValid = true → (fieldsOf p.word).assigned = true) : ∃ t, edge p s = .next t ∧ t.RunsAssigned := by
  cases hr : p.rst with
  | true => exact ⟨_, edge_reset s hr, .of_idle rfl⟩
  | false =>
    cases hb : s.busy with
    | true =>
      obtain ⟨t, ht, ho⟩ := work_of_assigned (hs hb)
      exact ⟨t, (edge_busy hr hb).trans ht, fun _ => ho ▸ hs hb⟩
    | false =>
      cases hv : p.cmdValid with
      | false => exact ⟨_, edge_idle hr hv hb, .of_idle hb⟩
      | true =>
        obtain ⟨i, hd⟩ := decode_ok_of_assigned (ha hv)
        exact ⟨_, edge_accept hr hv hb hd, fun _ => (accept_inFlight i s).assigned⟩

/-- The edges of a lawful host answer. -/
theorem HostLawful.edges_answer {kept : Option CommandWord} {ps : List Pins} {s : State} (h : HostLawful kept ps s)
    (hs : s.RunsAssigned) : ∃ t, edges ps s = .next t := by
  induction ps generalizing kept s with
  | nil => exact ⟨s, rfl⟩
  | cons p ps ih =>
    obtain ⟨hduty, hrest⟩ := h
    obtain ⟨t, ht, hs'⟩ := edge_of_assigned hs fun hv => (hduty hv).1
    obtain ⟨u, hu⟩ := ih (hrest t ht) hs'
    exact ⟨u, (edges_cons_of_next ps ht).trans hu⟩

/-- Where the check answers over a list of edges, the engine's own edges give the same state. -/
theorem edges_of_hostEdges {offered : Option CommandWord} {ps : List Pins} {s t : State}
    (h : hostEdges offered ps s = .next t) : edges ps s = .next t := by
  induction ps generalizing offered s with
  | nil => exact h
  | cons p ps ih =>
    cases he : hostEdge offered p s with
    | next u =>
      rw [hostEdges_cons_of_next ps he] at h
      exact (edges_cons_of_next ps (edge_of_hostEdge he)).trans (ih h)
    | fault f => cases f
    | refused r =>
      rw [hostEdges_cons_of_refused ps he] at h
      cases h

end Sys2Proof.Machine

namespace Sys2Proof
open Sys2Proof.Machine

/-- Settles O57: what the check refuses at one edge it refuses wherever a lawful host's edges lead, and elsewhere it is the
engine's own edge. -/
theorem hostDutiesOnlyRefuse : Obligations.HostDutiesOnlyRefuse := by
  refine ⟨fun p offered s hv ho => hostEdge_reserved offered s hv ho, fun p v s hv ha hne => hostEdge_unstable s hv ha hne,
    ?reserved, ?unstable, fun ps s h => ⟨h.hostEdges_eq, h.edges_answer⟩, fun ps offered s t h => edges_of_hostEdges h⟩
  case reserved =>
    intro qs ps p s u hlaw hu hv ho
    obtain ⟨kept, -, hgo⟩ := HostLawful.append (rs := []) (by rwa [List.append_nil]) hu
    rw [hgo, hostEdges_cons_of_refused ps (hostEdge_reserved kept u hv ho)]
  case unstable =>
    intro qs ps p q s u t hlaw hu ht hpv hready hqv hqa hne
    obtain ⟨kept, hlaw', hgo⟩ := hlaw.append hu
    obtain ⟨hown, -⟩ := hlaw'.cons
    rw [hgo, hostEdges_cons_of_next _ (hown.trans ht), stillOffered_of_not_ready hpv hready,
      hostEdges_cons_of_refused ps (hostEdge_unstable t hqv hqa hne.symm)]

end Sys2Proof

/-! PROOFS. The handshake for any latency (20_memory.md R48; 70_reset_and_hazards.md R165): what one edge of it does, said
once per kind of edge, and the walk through a command in progress. -/
namespace Sys2Proof.Machine

section
variable {lat : Opcode → Nat} {p : Pins}

theorem Port.edge_reset (m : Port) (hp : p.rst = true) : m.edge lat p = .next (Port.idle m.core.resetEdge) := by
  simp [Port.edge, hp]

theorem Port.edge_idle (c : State) (hp : p.rst = false) (hv : p.cmdValid = false) :
    (Port.idle c).edge lat p = .next (Port.idle c.quiet) := by
  simp [Port.edge, Port.idle, hp, hv]

theorem Port.edge_accept {i : Instr} (c : State) (hp : p.rst = false) (hv : p.cmdValid = true)
    (hd : decode p.word = .ok i) :
    (Port.idle c).edge lat p = .next ⟨c.quiet, some ⟨i, lat (opcodeOf i)⟩⟩ := by
  simp [Port.edge, Port.idle, hp, hv, hd]

theorem Port.edge_reserved {op : Opcode} (c : State) (hp : p.rst = false) (hv : p.cmdValid = true)
    (hd : decode p.word = .error (.reserved op)) :
    (Port.idle c).edge lat p = .refused (.reservedOpcode op) := by
  simp [Port.edge, Port.idle, hp, hv, hd]

theorem Port.edge_wait (c : State) (i : Instr) {n : Nat} (hp : p.rst = false) (hn : 0 < n) :
    Port.edge lat p ⟨c, some ⟨i, n + 1⟩⟩ = .next ⟨c.quiet, some ⟨i, n⟩⟩ := by
  simp [Port.edge, hp, Nat.pos_iff_ne_zero.mp hn]

theorem Port.edge_complete {c t : State} {i : Instr} (hp : p.rst = false) (hx : exec i c = .next t) :
    Port.edge lat p ⟨c, some ⟨i, 1⟩⟩ = .next (Port.idle t) := by
  simp [Port.edge, hp, hx]

theorem Port.edges_cons_of_next {m n : Port} (ps : List Pins) (h : m.edge lat p = .next n) :
    m.edges lat (p :: ps) = n.edges lat ps := by
  simp only [Port.edges, h]

theorem Port.edges_cons_of_refused {m : Port} {r : Refusal} (ps : List Pins) (h : m.edge lat p = .refused r) :
    m.edges lat (p :: ps) = .refused r := by
  simp only [Port.edges, h]

/-- The accepting edge of the presented word. -/
theorem Port.edges_present {w : CommandWord} {i : Instr} (ps : List Pins) (c : State) (hd : decode w = .ok i) :
    (Port.idle c).edges lat (Pins.present w :: ps) = Port.edges lat ps ⟨c.quiet, some ⟨i, lat (opcodeOf i)⟩⟩ :=
  Port.edges_cons_of_next ps (Port.edge_accept c rfl rfl (by rwa [Pins.word_present]))

/-- Fewer edges than the job has left only count it down. -/
theorem Port.edges_wait {ps : List Pins} (c : State) (i : Instr) {n : Nat} (hp : ∀ p ∈ ps, p.rst = false)
    (hn : ps.length < n) : Port.edges lat ps ⟨c.quiet, some ⟨i, n⟩⟩ = .next ⟨c.quiet, some ⟨i, n - ps.length⟩⟩ := by
  induction ps generalizing n with
  | nil => rfl
  | cons p ps ih =>
    obtain ⟨hp, hps⟩ := List.forall_mem_cons.mp hp
    cases n with
    | zero => cases hn
    | succ n =>
      have hn : ps.length < n := Nat.lt_of_succ_lt_succ hn
      rw [Port.edges_cons_of_next ps (Port.edge_wait c.quiet i hp (Nat.zero_lt_of_lt hn)), State.quiet_quiet, ih hps hn,
        List.length_cons, Nat.add_sub_add_right]

/-- As many edges as the job has left complete it. -/
theorem Port.edges_complete {ps : List Pins} {c t : State} {i : Instr} (hp : ∀ p ∈ ps, p.rst = false)
    (hps : ps ≠ []) (hx : exec i c.quiet = .next t) :
    Port.edges lat ps ⟨c.quiet, some ⟨i, ps.length⟩⟩ = .next (Port.idle t) := by
  induction ps with
  | nil => exact absurd rfl hps
  | cons p ps ih =>
    obtain ⟨hfirst, hrest⟩ := List.forall_mem_cons.mp hp
    cases ps with
    | nil => exact Port.edges_cons_of_next [] (Port.edge_complete hfirst hx)
    | cons q qs =>
      exact (Port.edges_cons_of_next _ (Port.edge_wait c.quiet i hfirst (Nat.zero_lt_succ _))).trans
        (ih hrest (List.cons_ne_nil q qs))

end

end Sys2Proof.Machine

namespace Sys2Proof
open Sys2Proof.Machine

/-- Settles O52: the edges before the last count the job down, and the last executes the command from the key the accepting
edge found. -/
theorem handshakeCompletesAfterLatency : Obligations.HandshakeCompletesAfterLatency := by
  intro lat s w i ps hd hlat hp
  rw [Port.edges_present ps s hd]
  constructor
  · intro hlen
    exact ⟨_, Port.edges_wait s i hp hlen, rfl⟩
  · intro hlen
    obtain ⟨t, u, ht, hu, hr, hhi, hlo⟩ := exec_of_same_key i (s := s) (s' := s.quiet) rfl rfl
    have hps : ps ≠ [] := List.ne_nil_of_length_pos (hlen ▸ hlat)
    refine ⟨t, Port.idle u, ht, hlen ▸ Port.edges_complete hp hps hu, ?_⟩
    rw [hr, hhi, hlo]
    rfl

end Sys2Proof

/-! PROOFS. The loop of the bit reversal, iteration by iteration (43_bit_reversal.md R121, R122). -/
namespace Sys2Proof.Machine

theorem bitWord_eq_setWidth (b : Bool) : bitWord b = (BitVec.ofBool b).setWidth 32 := by
  cases b <;> rfl

theorem reflectIter_source {w : Nat} (acc : BitVec w) (a : Word) (n : Nat) : (reflectIter acc a n).2 = a >>> n := by
  induction n with
  | zero => exact (BitVec.ushiftRight_zero a).symm
  | succ n ih => rw [reflectIter_succ, ih, BitVec.shiftRight_add]

/-- After `n` iterations the accumulator holds the `n` low bits of the operand in reverse order below the bits it held at
the start. -/
theorem getLsbD_reflectIter {w : Nat} (acc : BitVec w) (a : Word) (n : Nat) {i : Nat} (hi : i < w) :
    (reflectIter acc a n).1.getLsbD i = if i < n then a.getLsbD (n - 1 - i) else acc.getLsbD (i - n) := by
  induction n generalizing i with
  | zero => rfl
  | succ n ih =>
    rw [reflectIter_succ, reflectIter_source, BitVec.getLsbD_or, BitVec.getLsbD_shiftLeft]
    cases i with
    | zero => simp [hi]
    | succ i =>
      rw [Nat.add_sub_cancel, ih (Nat.lt_of_succ_lt hi)]
      simp [hi, Nat.sub_sub, Nat.add_comm 1]

/-- R121: 32 iterations from a zero accumulator reverse the operand and shift the source out. -/
theorem reflectIter_reverses (a : Word) : reflectIter 0#32 a 32 = (reflectWord a, 0#32) := by
  refine Prod.ext (BitVec.eq_of_getLsbD_eq fun i hi => ?_) ?_
  · simp [getLsbD_reflectIter, hi, -BitVec.getLsbD_eq_getElem]
  · rw [reflectIter_source]
    exact BitVec.ushiftRight_eq_zero (Nat.le_refl 32)

end Sys2Proof.Machine

/-! PROOFS. The reference hardware in the middle of a command (41_cipher_round_engine.md R106, 42_key_derivation.md R115,
43_bit_reversal.md R125, 70_reset_and_hazards.md R164): the state after the accepting edge and `n` working edges, in closed
form, and that working edges lead from one to the next and from the last to what the command's meaning gives. -/
namespace Sys2Proof.Machine

/-- The first pass of NORMLEARN after `n` rounds. -/
def State.learnLow (s : State) (serial : Word) (n : Nat) : State :=
  { s.accept (.normlearn serial) with
    regX := decRounds s.keyHi s.keyLo n (seedLo serial)
    regR := BitVec.ofNat 10 n }

/-- The second pass of NORMLEARN after `n` rounds, the low half derived. -/
def State.learnHigh (s : State) (serial : Word) (n : Nat) : State :=
  { s.accept (.normlearn serial) with
    regX := decRounds s.keyHi s.keyLo n (seedHi serial)
    regR := BitVec.ofNat 10 n
    regT := derivedLo s.keyHi s.keyLo serial
    pass := true }

/-- The reference hardware after the accepting edge of a command in state `s` and `n` working edges, `n` below the latency. -/
def State.stage (s : State) (i : Instr) (n : Nat) : State :=
  match i with
  | .setkey hi lo => s.accept (.setkey hi lo)
  | .getkey sel => s.accept (.getkey sel)
  | .encrypt p =>
    { s.accept (.encrypt p) with regX := encRounds s.keyHi s.keyLo n p, regR := BitVec.ofNat 10 n }
  | .decrypt c =>
    { s.accept (.decrypt c) with regX := decRounds s.keyHi s.keyLo n c, regR := BitVec.ofNat 10 n }
  | .normlearn serial => if n < 528 then s.learnLow serial n else s.learnHigh serial (n - 528)
  | .reflectpack w =>
    { s.accept (.reflectpack w) with
      regX := (reflectIter 0#32 w n).2
      regT := (reflectIter 0#32 w n).1
      regR := BitVec.ofNat 10 n }

theorem stage_zero (s : State) (i : Instr) : s.stage i 0 = s.accept i := by
  cases i <;> rfl

theorem stage_normlearn_low (s : State) (serial : Word) {n : Nat} (h : n < 528) :
    s.stage (.normlearn serial) n = s.learnLow serial n := if_pos h

theorem stage_normlearn_high (s : State) (serial : Word) (n : Nat) :
    s.stage (.normlearn serial) (528 + n) = s.learnHigh serial n := by
  rw [State.stage, if_neg (by omega), Nat.add_sub_cancel_left]

/-- What the outside sees in the middle of a command: no readiness, no response, the key as it was (R48). -/
theorem stage_view (s : State) (i : Instr) (n : Nat) : (s.stage i n).view = ⟨false, none, s.keyHi, s.keyLo⟩ := by
  cases i with
  | normlearn serial =>
    rcases Nat.lt_or_ge n 528 with h | h
    · rw [stage_normlearn_low s serial h]; rfl
    · obtain ⟨m, rfl⟩ := Nat.exists_eq_add_of_le h
      rw [stage_normlearn_high]; rfl
  | _ => rfl

theorem view_ready {s : State} : s.view.ready = !s.busy := Bool.and_true _

theorem stage_busy (s : State) (i : Instr) (n : Nat) : (s.stage i n).busy = true := by
  simpa [view_ready] using congrArg View.ready (stage_view s i n)

/-! ### one working edge -/

theorem ofNat10_ne {n m : Nat} (hm : m < 1024) (h : n < m) : BitVec.ofNat 10 n ≠ BitVec.ofNat 10 m :=
  fun he => absurd (ofNat10_inj (h.trans hm) hm he) (Nat.ne_of_lt h)

theorem work_stage_encrypt (s : State) (p : Word) {n : Nat} (h : n < 527) :
    (s.stage (.encrypt p) n).work = .next (s.stage (.encrypt p) (n + 1)) := by
  rw [work_encrypt rfl, encryptEdge_mid (ofNat10_ne (by decide) h)]
  simp only [State.stage, toNat_ofNat10 (show n < 1024 by omega), ofNat10_succ, encRounds_succ]
  rfl

theorem work_stage_encrypt_last (s : State) (p : Word) : (s.stage (.encrypt p) 527).work = exec (.encrypt p) s := by
  rw [work_encrypt rfl, encryptEdge_last (s := s.stage (.encrypt p) 527) rfl]
  rfl

theorem work_stage_decrypt (s : State) (c : Word) {n : Nat} (h : n < 527) :
    (s.stage (.decrypt c) n).work = .next (s.stage (.decrypt c) (n + 1)) := by
  rw [work_decrypt rfl, decryptEdge_mid (ofNat10_ne (by decide) h)]
  simp only [State.stage, toNat_ofNat10 (show n < 1024 by omega), ofNat10_succ, decRounds_succ]
  rfl

theorem work_stage_decrypt_last (s : State) (c : Word) : (s.stage (.decrypt c) 527).work = exec (.decrypt c) s := by
  rw [work_decrypt rfl, decryptEdge_last (s := s.stage (.decrypt c) 527) rfl]
  rfl

theorem work_learnLow (s : State) (serial : Word) {n : Nat} (h : n < 527) :
    (s.learnLow serial n).work = .next (s.learnLow serial (n + 1)) := by
  rw [work_normlearn rfl, normlearnEdge_mid (ofNat10_ne (by decide) h)]
  simp only [State.learnLow, toNat_ofNat10 (show n < 1024 by omega), ofNat10_succ, decRounds_succ]
  rfl

/-- The turn from the first pass to the second. -/
theorem work_learnLow_last (s : State) (serial : Word) :
    (s.learnLow serial 527).work = .next (s.learnHigh serial 0) := by
  rw [work_normlearn rfl, normlearnEdge_turn (s := s.learnLow serial 527) rfl rfl, State.learnHigh, decRounds_zero,
    seedHi_eq_append]
  rfl

theorem work_learnHigh (s : State) (serial : Word) {n : Nat} (h : n < 527) :
    (s.learnHigh serial n).work = .next (s.learnHigh serial (n + 1)) := by
  rw [work_normlearn rfl, normlearnEdge_mid (ofNat10_ne (by decide) h)]
  simp only [State.learnHigh, toNat_ofNat10 (show n < 1024 by omega), ofNat10_succ, decRounds_succ]
  rfl

theorem work_learnHigh_last (s : State) (serial : Word) :
    (s.learnHigh serial 527).work = exec (.normlearn serial) s := by
  rw [work_normlearn rfl, normlearnEdge_last (s := s.learnHigh serial 527) rfl rfl]
  rfl

theorem work_stage_reflectpack (s : State) (w : Word) {n : Nat} (h : n < 31) :
    (s.stage (.reflectpack w) n).work = .next (s.stage (.reflectpack w) (n + 1)) := by
  rw [work_reflectpack rfl, reflectEdge_mid (ofNat10_ne (by decide) h)]
  simp only [State.stage, ofNat10_succ, reflectIter_succ, bitWord_eq_setWidth]
  rfl

theorem work_stage_reflectpack_last (s : State) (w : Word) :
    (s.stage (.reflectpack w) 31).work = exec (.reflectpack w) s := by
  have last := reflectIter_reverses w
  rw [reflectIter_succ, ← bitWord_eq_setWidth, Prod.mk.injEq] at last
  obtain ⟨hT, hX⟩ := last
  rw [work_reflectpack rfl, reflectEdge_last (s := s.stage (.reflectpack w) 31) rfl]
  simp only [State.stage, hT, hX]
  rfl

/-- Every working edge before the last leads to the next stage (R164). -/
theorem work_stage (s : State) (i : Instr) {n : Nat} (h : n + 1 < Config.refLat (opcodeOf i)) :
    (s.stage i n).work = .next (s.stage i (n + 1)) := by
  cases i with
  | setkey hi lo => exact absurd (show n + 1 < 1 from h) (by omega)
  | getkey sel => exact absurd (show n + 1 < 1 from h) (by omega)
  | encrypt p => exact work_stage_encrypt s p (Nat.lt_of_succ_lt_succ h)
  | decrypt c => exact work_stage_decrypt s c (Nat.lt_of_succ_lt_succ h)
  | normlearn serial =>
    have h : n + 1 < 1056 := h
    rcases Nat.lt_trichotomy n 527 with hn | rfl | hn
    · rw [stage_normlearn_low s serial (by omega), stage_normlearn_low s serial (by omega), work_learnLow s serial hn]
    · rw [stage_normlearn_low s serial (by decide), work_learnLow_last]
      exact congrArg _ (stage_normlearn_high s serial 0).symm
    · obtain ⟨m, rfl⟩ := Nat.exists_eq_add_of_lt hn
      rw [show 527 + m + 1 = 528 + m by omega, Nat.add_assoc, stage_normlearn_high, stage_normlearn_high,
        work_learnHigh s serial (by omega)]
  | reflectpack w => exact work_stage_reflectpack s w (Nat.lt_of_succ_lt_succ h)

/-- The last working edge of a command leaves what its meaning gives. -/
theorem work_stage_last (s : State) (i : Instr) {n : Nat} (h : n + 1 = Config.refLat (opcodeOf i)) :
    (s.stage i n).work = exec i s := by
  cases i with
  | setkey hi lo => exact work_setkey rfl
  | getkey sel =>
    have flag : (s.stage (.getkey sel) n).regX.getLsbD 0 = sel := getLsbD_bitWord sel 0
    rw [work_getkey rfl, flag]
    rfl
  | encrypt p =>
    obtain rfl : n = 527 := Nat.succ.inj h
    exact work_stage_encrypt_last s p
  | decrypt c =>
    obtain rfl : n = 527 := Nat.succ.inj h
    exact work_stage_decrypt_last s c
  | normlearn serial =>
    obtain rfl : n = 528 + 527 := Nat.succ.inj h
    rw [stage_normlearn_high, work_learnHigh_last]
  | reflectpack w =>
    obtain rfl : n = 31 := Nat.succ.inj h
    exact work_stage_reflectpack_last s w

end Sys2Proof.Machine

/-! PROOFS. The reference hardware implements the handshake (20_memory.md R48, 70_reset_and_hazards.md R164). The relation
`Implements` pairs an idle engine with an idle port and the `n`th stage of a command with a job that has the rest of the
latency left; every edge keeps it or is refused on both sides. -/
namespace Sys2Proof.Machine

/-- The reference hardware and a port alike from outside, and at the same point of the same command. -/
inductive State.Implements : State → Port → Prop where
  | idle {s c : State} (hb : s.busy = false) (hr : s.rsp = c.rsp) (hhi : s.keyHi = c.keyHi) (hlo : s.keyLo = c.keyLo) :
      s.Implements (Port.idle c)
  | running {d c : State} {i : Instr} {n left : Nat} (hl : 0 < left) (hn : n + left = Config.refLat (opcodeOf i))
      (hr : c.rsp = none) (hhi : d.keyHi = c.keyHi) (hlo : d.keyLo = c.keyLo) :
      (d.stage i n).Implements ⟨c, some ⟨i, left⟩⟩

theorem State.Implements.view_eq {s : State} {m : Port} (h : s.Implements m) : m.view = s.view := by
  cases h with
  | idle hb hr hhi hlo => simp [State.view, State.cmdReady, Port.view, Port.idle, hb, hr, hhi, hlo]
  | running hl hn hr hhi hlo => simp [stage_view, Port.view, hr, hhi, hlo]

/-- The outcomes of an edge, or of a list of edges, on the two sides: next states at the same point, or one refusal. -/
def OutcomesAgree (o : Host.Outcome State Fault Refusal) (q : Host.Outcome Port Fault Refusal) : Prop :=
  (∃ t m, o = .next t ∧ q = .next m ∧ t.Implements m) ∨ ∃ r, o = .refused r ∧ q = .refused r

theorem refLat_pos (op : Opcode) : 0 < Config.refLat op := by
  unfold Config.refLat
  split <;> decide

/-- A command executed under the same key on both sides leaves them alike and idle. -/
theorem exec_implements (i : Instr) {s c : State} (hhi : s.keyHi = c.keyHi) (hlo : s.keyLo = c.keyLo) :
    ∃ t u, exec i s = .next t ∧ exec i c = .next u ∧ t.Implements (Port.idle u) := by
  obtain ⟨t, u, ht, hu, hr, hhi', hlo'⟩ := exec_of_same_key i hhi hlo
  exact ⟨t, u, ht, hu, .idle (exec_idle ht) hr hhi' hlo'⟩

/-- An edge of an idle engine: nothing, an acceptance, or the refusal of a reserved word. -/
theorem edge_agrees_idle {p : Pins} {s c : State} (hp : p.rst = false) (hb : s.busy = false) (hhi : s.keyHi = c.keyHi)
    (hlo : s.keyLo = c.keyLo) : OutcomesAgree (edge p s) ((Port.idle c).edge Config.refLat p) := by
  cases hc : p.cmdValid with
  | false => exact .inl ⟨_, _, edge_idle hp hc hb, Port.edge_idle c hp hc, .idle hb rfl hhi hlo⟩
  | true =>
    cases hd : decode p.word with
    | ok i =>
      refine .inl ⟨_, _, edge_accept hp hc hb hd, Port.edge_accept c hp hc hd, ?_⟩
      exact stage_zero s i ▸ .running (refLat_pos _) (Nat.zero_add _) rfl hhi hlo
    | error e =>
      cases e
      exact .inr ⟨_, edge_reserved hp hc hb hd, Port.edge_reserved c hp hc hd⟩

/-- An edge in the middle of a command: the next stage, or at the end of the latency the command's whole effect. -/
theorem edge_agrees_running {p : Pins} {d c : State} {i : Instr} {n left : Nat} (hp : p.rst = false) (hl : 0 < left)
    (hn : n + left = Config.refLat (opcodeOf i)) (hhi : d.keyHi = c.keyHi) (hlo : d.keyLo = c.keyLo) :
    OutcomesAgree (edge p (d.stage i n)) (Port.edge Config.refLat p ⟨c, some ⟨i, left⟩⟩) := by
  rw [edge_busy hp (stage_busy d i n)]
  match left, hl with
  | 1, _ =>
    obtain ⟨t, u, ht, hu, himp⟩ := exec_implements i hhi hlo
    exact .inl ⟨t, _, (work_stage_last d i hn).trans ht, Port.edge_complete hp hu, himp⟩
  | left + 2, _ =>
    exact .inl ⟨_, _, work_stage d i (by omega), Port.edge_wait c i hp (Nat.zero_lt_succ left),
      .running (Nat.zero_lt_succ left) (by omega) rfl hhi hlo⟩

theorem edge_agrees (p : Pins) {s : State} {m : Port} (h : s.Implements m) :
    OutcomesAgree (edge p s) (m.edge Config.refLat p) := by
  cases hp : p.rst with
  | true => exact .inl ⟨_, _, edge_reset s hp, Port.edge_reset m hp, .idle rfl rfl rfl rfl⟩
  | false =>
    cases h with
    | idle hb hr hhi hlo => exact edge_agrees_idle hp hb hhi hlo
    | running hl hn hr hhi hlo => exact edge_agrees_running hp hl hn hhi hlo

theorem edges_agree (ps : List Pins) {s : State} {m : Port} (h : s.Implements m) :
    OutcomesAgree (edges ps s) (m.edges Config.refLat ps) := by
  induction ps generalizing s m with
  | nil => exact .inl ⟨s, m, rfl, rfl, h⟩
  | cons p ps ih =>
    rcases edge_agrees p h with ⟨t, n, ht, hn, himp⟩ | ⟨r, hs, hm⟩
    · rw [edges_cons_of_next ps ht, Port.edges_cons_of_next ps hn]
      exact ih himp
    · exact .inr ⟨r, edges_cons_of_refused ps hs, Port.edges_cons_of_refused ps hm⟩

end Sys2Proof.Machine

namespace Sys2Proof
open Sys2Proof.Machine

/-- Settles O53: an idle engine implements its port, and edges keep that or are refused on both sides. -/
theorem referenceMeetsHandshake : Obligations.ReferenceMeetsHandshake := by
  intro ps s hb
  rcases edges_agree ps (State.Implements.idle hb rfl rfl rfl) with ⟨t, m, ht, hm, himp⟩ | ⟨r, hs, hm⟩
  · rw [ht, hm]
    refine ⟨?_, fun r => ⟨nofun, nofun⟩⟩
    rintro _ ⟨⟩
    exact ⟨m, rfl, himp.view_eq⟩
  · rw [hs, hm]
    exact ⟨nofun, fun q => by simp⟩

end Sys2Proof

/-! PROOFS. The decoder opcode by opcode (30_encoding.md R62, R66, R68), and what it answers on a canonical word: the two
directions of the round trip between words and commands (R67). -/
namespace Sys2Proof
open Sys2Proof.Machine

/-! ### the decoder, one equation per opcode -/

section
variable {w : CommandWord}

theorem decode_setkey (h : opOf w = opSetkey) : decode w = .ok (.setkey (aOf w) (bOf w)) := by
  simp [decode, decodeFields, fieldsOf, h]

theorem decode_getkey (h : opOf w = opGetkey) : decode w = .ok (.getkey ((aOf w).getLsbD 0)) := by
  simp only [decode, decodeFields, fieldsOf, h]
  rfl

theorem decode_encrypt (h : opOf w = opEncrypt) : decode w = .ok (.encrypt (aOf w)) := by
  simp only [decode, decodeFields, fieldsOf, h]
  rfl

theorem decode_decrypt (h : opOf w = opDecrypt) : decode w = .ok (.decrypt (aOf w)) := by
  simp only [decode, decodeFields, fieldsOf, h]
  rfl

theorem decode_normlearn (h : opOf w = opNormlearn) : decode w = .ok (.normlearn (aOf w)) := by
  simp only [decode, decodeFields, fieldsOf, h]
  rfl

theorem decode_reflectpack (h : opOf w = opReflectpack) : decode w = .ok (.reflectpack (aOf w)) := by
  simp only [decode, decodeFields, fieldsOf, h]
  rfl

theorem decode_reserved (h : ¬ (opOf w).toNat ≤ 5) : decode w = .error (.reserved (opOf w)) :=
  decode_error_iff.mpr ⟨h, rfl⟩

end

theorem not_assigned_of_six_or_seven {op : Opcode} (h : op = 6#3 ∨ op = 7#3) : ¬ op.toNat ≤ 5 := by
  rcases h with rfl | rfl <;> decide

/-! ### canonical words -/

theorem opOf_encode (i : Instr) : opOf (encode i) = opcodeOf i := opOf_wordOf _

theorem aOf_encode (i : Instr) : aOf (encode i) = (canonicalFields i).a := aOf_wordOf _

theorem bOf_encode (i : Instr) : bOf (encode i) = (canonicalFields i).b := bOf_wordOf _

theorem decode_encode (i : Instr) : decode (encode i) = .ok i := by
  have fields : decode (encode i) = decodeFields (canonicalFields i) := congrArg decodeFields (fieldsOf_wordOf _)
  rw [fields]
  cases i with
  | getkey sel => cases sel <;> rfl
  | _ => rfl

theorem canonicalFields_getkey (sel : Bool) : canonicalFields (.getkey sel) = ⟨opGetkey, bitWord sel, 0#32⟩ := rfl

theorem canonicalFields_b {i : Instr} (h : ∀ hi lo, i ≠ .setkey hi lo) : (canonicalFields i).b = 0#32 := by
  cases i with
  | setkey hi lo => exact absurd rfl (h hi lo)
  | _ => rfl

/-- R67, as two demands on the fields. -/
theorem canonical_iff {c : RawCommand} : c.canonical = true ↔
    (c.op ≠ opSetkey → c.b = 0#32) ∧ (c.op = opGetkey → c.a >>> 1 = 0#32) := by
  simp only [RawCommand.canonical, opSetkey, opGetkey, Bool.and_eq_true, Bool.or_eq_true, decide_eq_true_eq]
  exact and_congr or_iff_not_imp_left imp_iff_not_or.symm

/-- A word with zeros above bit 0 is its bit 0. -/
theorem bitWord_getLsbD_zero {a : Word} (h : a >>> 1 = 0#32) : bitWord (a.getLsbD 0) = a := by
  apply BitVec.eq_of_getLsbD_eq
  intro i _
  rw [getLsbD_bitWord]
  cases i with
  | zero => simp
  | succ n =>
    have above : (a >>> 1).getLsbD n = false := by simp [h]
    rw [BitVec.getLsbD_ushiftRight, Nat.add_comm] at above
    simp [above]

/-- The fields of a canonical word are those the encoder gives the command it decodes to. -/
theorem canonicalFields_of_decode {w : CommandWord} {i : Instr} (hd : decode w = .ok i)
    (hc : (fieldsOf w).canonical = true) : canonicalFields i = fieldsOf w := by
  obtain ⟨hb, ha⟩ := canonical_iff.mp hc
  have fields {op : Opcode} (ho : opOf w = op) (hne : op ≠ opSetkey) : fieldsOf w = ⟨op, aOf w, 0#32⟩ := by
    subst ho
    rw [← show bOf w = 0#32 from hb hne, fieldsOf]
  rcases opcode_of_assigned (opOf w) (of_decide_eq_true (assigned_of_decode hd)) with ho | ho | ho | ho | ho | ho
  · obtain rfl := Except.ok.inj ((decode_setkey ho).symm.trans hd)
    rw [fieldsOf, ho]
    rfl
  · obtain rfl := Except.ok.inj ((decode_getkey ho).symm.trans hd)
    have flag : bitWord ((aOf w).getLsbD 0) = aOf w := bitWord_getLsbD_zero (ha ho)
    rw [fields ho (by decide), canonicalFields_getkey, flag]
  · obtain rfl := Except.ok.inj ((decode_encrypt ho).symm.trans hd)
    exact (fields ho (by decide)).symm
  · obtain rfl := Except.ok.inj ((decode_decrypt ho).symm.trans hd)
    exact (fields ho (by decide)).symm
  · obtain rfl := Except.ok.inj ((decode_normlearn ho).symm.trans hd)
    exact (fields ho (by decide)).symm
  · obtain rfl := Except.ok.inj ((decode_reflectpack ho).symm.trans hd)
    exact (fields ho (by decide)).symm

/-- Settles O3: the decoder reads the fields of the word back, and each command's fields decode to it. -/
theorem decodeOfEncode : Obligations.DecodeOfEncode := fun i _ => decode_encode i

/-- Settles O5: a canonical word has the encoder's own fields. -/
theorem encodeOfDecode : Obligations.EncodeOfDecode := by
  intro w i hd hc
  rw [encode, canonicalFields_of_decode hd hc, wordOf_fieldsOf]

/-- Settles O1, opcode by opcode. -/
theorem decoderSelectsByOpcode : Obligations.DecoderSelectsByOpcode := fun _ =>
  ⟨decode_setkey, decode_getkey, decode_encrypt, decode_decrypt, decode_normlearn, decode_reflectpack,
    fun h => decode_reserved (not_assigned_of_six_or_seven h)⟩

/-- Settles O4, from the encoder's fields. -/
theorem encodingIsCanonical : Obligations.EncodingIsCanonical := by
  refine ⟨fun i hi => (bOf_encode i).trans (canonicalFields_b hi), fun sel j hj => ?_, fun serial => aOf_encode _⟩
  rw [aOf_encode, canonicalFields_getkey, getLsbD_bitWord, decide_eq_false (Nat.ne_of_gt hj), Bool.false_and]

end Sys2Proof

/-! PROOFS. The opcode table's mask and match (30_encoding.md R73) as words with an opcode field alone. -/
namespace Sys2Proof

theorem wordOf_and_wordOf (c d : RawCommand) :
    wordOf c &&& wordOf d = wordOf ⟨c.op &&& d.op, c.a &&& d.a, c.b &&& d.b⟩ :=
  BitVec.and_append.trans (congrArg (· ++ (c.b &&& d.b)) BitVec.and_append)

theorem and_tableMask (w : CommandWord) : w &&& tableMask = wordOf ⟨opOf w, 0#32, 0#32⟩ := by
  have mask : tableMask = wordOf ⟨7#3, 0#32, 0#32⟩ := by decide
  have op : opOf w &&& 7#3 = opOf w := BitVec.and_allOnes
  calc w &&& tableMask = wordOf (fieldsOf w) &&& wordOf ⟨7#3, 0#32, 0#32⟩ := by rw [wordOf_fieldsOf, mask]
    _ = wordOf ⟨opOf w &&& 7#3, aOf w &&& 0#32, bOf w &&& 0#32⟩ := wordOf_and_wordOf _ _
    _ = wordOf ⟨opOf w, 0#32, 0#32⟩ := by rw [op, BitVec.and_zero, BitVec.and_zero]

theorem tableMatch_eq (i : Instr) : tableMatch i = wordOf ⟨opcodeOf i, 0#32, 0#32⟩ := by
  cases i <;> simp only [tableMatch, opcodeOf, canonicalFields] <;> decide

theorem and_tableMask_eq_tableMatch (w : CommandWord) (i : Instr) :
    w &&& tableMask = tableMatch i ↔ opOf w = opcodeOf i := by
  rw [and_tableMask, tableMatch_eq]
  constructor
  · intro h
    simpa only [opOf_wordOf] using congrArg opOf h
  · intro h
    rw [h]

theorem opcodeOf_assigned (i : Instr) : (opcodeOf i).toNat ≤ 5 := by
  rw [← opOf_encode]
  exact of_decide_eq_true (assigned_of_decode (decode_encode i))

/-- Settles O6: either side says that the word's opcode is the command's, and a word with that opcode decodes. -/
theorem tableMatchSelectsCommand : Obligations.TableMatchSelectsCommand := by
  intro w i
  rw [and_tableMask_eq_tableMatch]
  constructor
  · intro h
    have assigned : (opOf w).toNat ≤ 5 := h ▸ opcodeOf_assigned i
    obtain ⟨j, hj⟩ := decode_ok_of_assigned (w := w) (decide_eq_true assigned)
    exact ⟨j, hj, (opcodeOf_of_decode hj).trans h⟩
  · rintro ⟨j, hj, hop⟩
    exact (opcodeOf_of_decode hj).symm.trans hop

end Sys2Proof

/-! PROOFS. Ignored bits have no effect (30_encoding.md R64), and a reserved word is refused (R68). NORMLEARN reads of its
serial the low 28 bits alone. -/
namespace Sys2Proof.Machine

theorem serialField_congr {a b : Word} (h : ∀ j < 28, a.getLsbD j = b.getLsbD j) : serialField a = serialField b := by
  apply BitVec.eq_of_getLsbD_eq
  intro i hi
  simp [serialField, hi, h i hi]

theorem exec_normlearn_congr {a b : Word} (s : State) (h : serialField a = serialField b) :
    exec (.normlearn a) s = exec (.normlearn b) s := by
  have low : seedLo a = seedLo b := by rw [seedLo_eq_append, seedLo_eq_append, h]
  have high : seedHi a = seedHi b := by rw [seedHi_eq_append, seedHi_eq_append, h]
  simp only [exec, execNormlearn, derivedHi, derivedLo, low, high, h]

theorem perform_reserved {w : CommandWord} (s : State) (h : ¬ (opOf w).toNat ≤ 5) :
    perform w s = .refused (.reservedOpcode (opOf w)) := by
  simp only [perform, decode_reserved h]

theorem abandon_reserved {w : CommandWord} (s : State) (h : ¬ (opOf w).toNat ≤ 5) :
    abandon w s = .refused (.reservedOpcode (opOf w)) := by
  simp only [abandon, decode_reserved h]

theorem edge_present_reserved {w : CommandWord} {s : State} (hb : s.busy = false) (h : ¬ (opOf w).toNat ≤ 5) :
    edge (Pins.present w) s = .refused (.reservedOpcode (opOf w)) :=
  edge_reserved rfl rfl hb (by rw [Pins.word_present, decode_reserved h])

end Sys2Proof.Machine

namespace Sys2Proof
open Sys2Proof.Machine

/-- Settles O7: two such words decode to one command, but for NORMLEARN, whose two serials have one effect, and for reserved
words, which are both refused. -/
theorem ignoredBitsHaveNoEffect : Obligations.IgnoredBitsHaveNoEffect := by
  intro w v s hop hset hget hword hlearn
  by_cases assigned : (opOf w).toNat ≤ 5
  · rcases opcode_of_assigned (opOf w) assigned with ho | ho | ho | ho | ho | ho <;> have hv := hop.symm.trans ho
    · obtain ⟨ha, hb⟩ := hset ho
      rw [perform_ok s (decode_setkey ho), perform_ok s (decode_setkey hv), ha, hb]
    · rw [perform_ok s (decode_getkey ho), perform_ok s (decode_getkey hv), hget ho]
    · rw [perform_ok s (decode_encrypt ho), perform_ok s (decode_encrypt hv), hword (.inl ho)]
    · rw [perform_ok s (decode_decrypt ho), perform_ok s (decode_decrypt hv), hword (.inr (.inl ho))]
    · rw [perform_ok s (decode_normlearn ho), perform_ok s (decode_normlearn hv)]
      exact exec_normlearn_congr s (serialField_congr (hlearn ho))
    · rw [perform_ok s (decode_reflectpack ho), perform_ok s (decode_reflectpack hv), hword (.inr (.inr ho))]
  · rw [perform_reserved s assigned, perform_reserved s (hop ▸ assigned), hop]

/-- Settles O8: neither the two moves that serve the word nor the accepting edge has anything to decode. -/
theorem reservedOpcodeRefused : Obligations.ReservedOpcodeRefused := by
  intro w s ms hop hb
  have reserved := not_assigned_of_six_or_seven hop
  refine ⟨fun hh => ?_, fun hh => ?_, edge_present_reserved hb reserved⟩
  · exact (step_idle_cons hb hh).trans (perform_reserved _ reserved)
  · exact (step_idle_cons hb hh).trans (abandon_reserved _ reserved)

end Sys2Proof

/-! PROOFS. The pseudo-commands (30_encoding.md R71). -/
namespace Sys2Proof
open Sys2Proof.Machine

theorem keyHiOf_append_keyLoOf (k : KeyWord) : keyHiOf k ++ keyLoOf k = k := by
  apply BitVec.eq_of_getLsbD_eq
  intro i hi
  rw [BitVec.getLsbD_append, keyHiOf, keyLoOf, BitVec.getLsbD_extractLsb', BitVec.getLsbD_extractLsb']
  by_cases h : i < 32
  · simp [h]
  · simp [h, show 32 + (i - 32) = i by omega, show i - 32 < 32 by omega]

/-- Settles O9: each expansion run command by command. -/
theorem pseudoCommandsExpand : Obligations.PseudoCommandsExpand := by
  refine ⟨⟨rfl, rfl⟩, fun k serial s => ⟨rfl, rfl, ?getkeyh, ?getkeyl, ?setkey64, ?learn⟩⟩
  case getkeyh => exact ⟨_, runCommands_cons rfl rfl rfl⟩
  case getkeyl => exact ⟨_, runCommands_cons rfl rfl rfl⟩
  case setkey64 => exact ⟨_, runCommands_cons rfl rfl rfl, keyHiOf_append_keyLoOf k⟩
  case learn => exact ⟨_, runCommands_cons rfl rfl (runCommands_cons rfl rfl rfl), rfl, rfl⟩

end Sys2Proof

/-! PROOFS. SETKEY and GETKEY (40_key_access.md): their encodings and effects, and the key that later commands read past
commands that write none. -/
namespace Sys2Proof
open Sys2Proof.Machine

/-! ### one command -/

theorem decode_wordOf (c : RawCommand) : decode (wordOf c) = decodeFields c :=
  congrArg decodeFields (fieldsOf_wordOf c)

theorem exec_setkey (hi lo : Word) (s : State) :
    ∃ t, exec (.setkey hi lo) s = .next t ∧ t.rsp = some .void ∧ t.arch = (hi, lo) := ⟨_, rfl, rfl, rfl⟩

theorem exec_getkey (sel : Bool) (s : State) :
    ∃ t, exec (.getkey sel) s = .next t ∧ t.rsp = some (.data (selectHalf sel s.keyHi s.keyLo)) ∧ t.arch = s.arch ∧
      t.busy = false ∧ t.host = s.host := ⟨_, rfl, rfl, rfl, rfl, rfl⟩

theorem exec_normlearn (serial : Word) (s : State) :
    ∃ t, exec (.normlearn serial) s = .next t ∧ t.rsp = some .void ∧
      t.arch = (derivedHi s.keyHi s.keyLo serial, derivedLo s.keyHi s.keyLo serial) := ⟨_, rfl, rfl, rfl⟩

/-- Settles O15, from the fields of the word and the meaning of SETKEY. -/
theorem setkeyReplacesKey : Obligations.SetkeyReplacesKey :=
  ⟨fun a b => decode_wordOf ⟨opSetkey, a, b⟩, fun _ _ _ => ⟨_, rfl, rfl, rfl, rfl, rfl, rfl, rfl⟩⟩

/-- Settles O16, from the fields of the word, the two canonical words and the meaning of GETKEY. -/
theorem getkeyReadsSelectedHalf : Obligations.GetkeyReadsSelectedHalf :=
  ⟨fun a b => decode_wordOf ⟨opGetkey, a, b⟩, ⟨by decide, by decide⟩,
    fun s => ⟨exec_getkey true s, exec_getkey false s⟩⟩

/-! ### runs past commands that write no key -/

/-- Commands that write no key answer, and whatever follows them runs from a state that holds the key they found. -/
theorem runCommands_past_readers {is : List Instr} (hw : ∀ i ∈ is, commandWritesKey i = false) (s : State) :
    ∃ t rs, t.arch = s.arch ∧ ∀ js u qs, runCommands js t = .next (u, qs) →
      runCommands (is ++ js) s = .next (u, rs ++ qs) := by
  induction is generalizing s with
  | nil => exact ⟨s, [], rfl, fun _ _ _ h => h⟩
  | cons i is ih =>
    obtain ⟨hi, his⟩ := List.forall_mem_cons.mp hw
    obtain ⟨v, q, hx, hq, -⟩ := exec_next i s
    obtain ⟨t, rs, harch, hrun⟩ := ih his v
    exact ⟨t, q :: rs, harch.trans (exec_keeps_arch hi hx), fun js u qs h =>
      runCommands_cons hx hq (hrun js u qs h)⟩

section
variable {is : List Instr} {s : State} {hi lo : Word}

/-- The two GETKEYs return the key held before the commands that write none. -/
theorem getkeys_past_readers (hw : ∀ i ∈ is, commandWritesKey i = false) (hs : s.arch = (hi, lo)) :
    ∃ t rs, runCommands (is ++ [.getkey true, .getkey false]) s = .next (t, rs ++ [.data hi, .data lo]) := by
  obtain ⟨t, rs, harch, hrun⟩ := runCommands_past_readers hw s
  obtain ⟨rfl, rfl⟩ := Prod.mk.inj (harch.trans hs)
  exact ⟨_, rs, hrun _ _ _ (runCommands_cons rfl rfl (runCommands_cons rfl rfl rfl))⟩

/-- ENCRYPT, DECRYPT and then NORMLEARN compute under the key held before the commands that write none. -/
theorem ciphers_past_readers (hw : ∀ i ∈ is, commandWritesKey i = false) (hs : s.arch = (hi, lo)) (x : Word) :
    ∃ t rs, runCommands (is ++ [.encrypt x, .decrypt x, .normlearn x]) s =
      .next (t, rs ++ [.data (encryptWord hi lo x), .data (decryptWord hi lo x), .void]) ∧
      t.keyHi = derivedHi hi lo x ∧ t.keyLo = derivedLo hi lo x := by
  obtain ⟨t, rs, harch, hrun⟩ := runCommands_past_readers hw s
  obtain ⟨rfl, rfl⟩ := Prod.mk.inj (harch.trans hs)
  exact ⟨_, rs, hrun _ _ _ (runCommands_cons rfl rfl (runCommands_cons rfl rfl (runCommands_cons rfl rfl rfl))),
    rfl, rfl⟩

end

/-- Settles O17: the GETKEYs read the key left by SETKEY, by NORMLEARN and by the reset edge. -/
theorem keyReadsBack : Obligations.KeyReadsBack := by
  intro is s h l serial hw
  refine ⟨?setkey, ?normlearn, getkeys_past_readers hw rfl⟩
  case setkey =>
    obtain ⟨v, hx, hr, harch⟩ := exec_setkey h l s
    obtain ⟨t, rs, hrun⟩ := getkeys_past_readers hw harch
    exact ⟨t, rs, runCommands_cons hx hr hrun⟩
  case normlearn =>
    obtain ⟨v, hx, hr, harch⟩ := exec_normlearn serial s
    obtain ⟨t, rs, hrun⟩ := getkeys_past_readers hw harch
    exact ⟨t, rs, runCommands_cons hx hr hrun⟩

/-- Settles O18: the three commands compute under the key left by SETKEY. -/
theorem newKeyIsUsed : Obligations.NewKeyIsUsed := by
  intro is s h l x hw
  obtain ⟨v, hx, hr, harch⟩ := exec_setkey h l s
  obtain ⟨t, rs, hrun, hhi, hlo⟩ := ciphers_past_readers hw harch x
  exact ⟨t, rs, runCommands_cons hx hr hrun, hhi, hlo⟩

end Sys2Proof

/-! PROOFS. ENCRYPT and DECRYPT command by command (41_cipher_round_engine.md R94, R98): their encodings, their effects, and
their rounds as the loops of the pseudocode. -/
namespace Sys2Proof.Machine

theorem exec_encrypt (p : Word) (s : State) :
    ∃ t, exec (.encrypt p) s = .next t ∧ t.rsp = some (.data (encryptWord s.keyHi s.keyLo p)) ∧ t.arch = s.arch ∧
      t.busy = false ∧ t.host = s.host := ⟨_, rfl, rfl, rfl, rfl, rfl⟩

theorem exec_decrypt (c : Word) (s : State) :
    ∃ t, exec (.decrypt c) s = .next t ∧ t.rsp = some (.data (decryptWord s.keyHi s.keyLo c)) ∧ t.arch = s.arch ∧
      t.busy = false ∧ t.host = s.host := ⟨_, rfl, rfl, rfl, rfl, rfl⟩

theorem encRounds_eq_foldl (hi lo x : Word) (n : Nat) :
    encRounds hi lo n x = (List.range n).foldl (fun y r => encRound y (keyBit hi lo (kf r))) x := by
  induction n with
  | zero => rfl
  | succ n ih => rw [encRounds_succ, ih, List.range_succ, List.foldl_concat]

theorem decRounds_eq_foldl (hi lo x : Word) (n : Nat) :
    decRounds hi lo n x = (List.range n).foldl (fun y r => decRound y (keyBit hi lo (kd r))) x := by
  induction n with
  | zero => rfl
  | succ n ih => rw [decRounds_succ, ih, List.range_succ, List.foldl_concat]

end Sys2Proof.Machine

namespace Sys2Proof
open Sys2Proof.Machine

/-- Settles O20, from the fields of the word, the meaning of ENCRYPT and its rounds as a loop. -/
theorem encryptRunsForwardRounds : Obligations.EncryptRunsForwardRounds := by
  refine ⟨fun a b => ⟨decode_wordOf ⟨opEncrypt, a, b⟩, rfl⟩, fun p s => ?_⟩
  obtain ⟨t, hx, hr, hframe⟩ := exec_encrypt p s
  rw [encryptWord_eq, encRounds_eq_foldl] at hr
  exact ⟨t, hx, hr, hframe⟩

/-- Settles O21, from the fields of the word, the meaning of DECRYPT and its rounds as a loop. -/
theorem decryptRunsInverseRounds : Obligations.DecryptRunsInverseRounds := by
  refine ⟨fun a b => ⟨decode_wordOf ⟨opDecrypt, a, b⟩, rfl⟩, fun c s => ?_⟩
  obtain ⟨t, hx, hr, hframe⟩ := exec_decrypt c s
  rw [decryptWord_eq, decRounds_eq_foldl] at hr
  exact ⟨t, hx, hr, hframe⟩

end Sys2Proof

/-! PROOFS. One round (R90, R92, R93, R96, R97, R99): the index of five taps, the bits of the two rounds, and the forward
round undone by the inverse round. -/
namespace Sys2Proof.Machine

theorem tapIndex_lt : ∀ t0 t1 t2 t3 t4 : Bool, tapIndex t0 t1 t2 t3 t4 < 32 := by decide

/-- The inverse taps of the shifted word are the forward taps of the word. -/
theorem idxD_encRound (x : Word) (k : Bool) : idxD (encRound x k) = idxF x := by
  simp [idxF, idxD, getLsbD_encRound, -BitVec.getLsbD_eq_getElem]

/-- R99: an inverse round undoes a forward round with the same key bit. -/
theorem decRound_encRound (x : Word) (k : Bool) : decRound (encRound x k) k = x := by
  have cancel : ∀ a b n k : Bool, ((a ^^ b ^^ n ^^ k) ^^ b ^^ n ^^ k) = a := by decide
  apply BitVec.eq_of_getLsbD_eq
  intro i hi
  rw [getLsbD_decRound]
  split
  · next h =>
    rw [decFeedback, idxD_encRound, getLsbD_encRound, getLsbD_encRound, h]
    exact cancel ..
  · next h =>
    have below : i - 1 ≠ 31 := by omega
    have shift : i - 1 + 1 = i := by omega
    rw [getLsbD_encRound, if_neg below, shift, decide_eq_true hi, Bool.true_and]

end Sys2Proof.Machine

namespace Sys2Proof
open Sys2Proof.Machine

/-- Settles O23: the shifted bits and the feedback bit of the forward round. -/
theorem forwardRoundBits : Obligations.ForwardRoundBits := by
  refine fun x k => ⟨fun i hi => ?shifted, ?feedback, rfl, tapIndex_lt ..⟩
  case shifted => rw [getLsbD_encRound, if_neg (by omega)]
  case feedback => exact getLsbD_encRound x k 31

/-- Settles O24: the shifted bits and the feedback bit of the inverse round. -/
theorem inverseRoundBits : Obligations.InverseRoundBits := by
  refine fun x k => ⟨fun i h1 h31 => ?shifted, ?feedback, rfl, tapIndex_lt ..⟩
  case shifted =>
    have inside : i < 32 := by omega
    rw [getLsbD_decRound, if_neg (by omega), decide_eq_true inside, Bool.true_and]
  case feedback => exact getLsbD_decRound x k 0

/-- Settles O25: the taps of either round are the shifted taps of the other, so its feedback bit returns the bit lost. -/
theorem roundsUndoEachOther : Obligations.RoundsUndoEachOther :=
  fun x k => ⟨decRound_encRound x k, encRound_decRound x k⟩

/-- Settles O22: the thirty-two entries of the table, read off the constant. -/
theorem nlfTableEntries : Obligations.NlfTableEntries := by
  have listed : ∀ i < 32, nlfBit i = true ↔ i ∈ [1, 2, 3, 5, 10, 12, 13, 14, 18, 19, 20, 22, 25, 27, 28, 29] := by
    decide
  exact ⟨fun i hi => ⟨rfl, listed i hi⟩, fun _ _ _ _ _ => ⟨rfl, tapIndex_lt ..⟩⟩

end Sys2Proof

/-! PROOFS. The key schedule (R91, R95, R100, R101) and the two transforms, each the inverse of the other (R102, R103). -/
namespace Sys2Proof.Machine

/-! ### the key-bit indices -/

theorem kf_eq_mod (r : Nat) : kf r = r % 64 := by
  rw [kf, emod_eq]
  omega

theorem kf_lt (r : Nat) : kf r < 64 := emod_lt _ (by decide)

theorem kd_lt (r : Nat) : kd r < 64 := emod_lt _ (by decide)

/-- R95: the low six bits of `15 - r` in ten-bit two's complement. -/
theorem kd_eq_low_bits (r : Nat) : kd r = ((15#10 - BitVec.ofNat 10 r) &&& 63#10).toNat := by
  have mask : ∀ n, n &&& 63 = n % 64 := fun n => Nat.and_two_pow_sub_one_eq_mod n 6
  rw [BitVec.toNat_and, BitVec.toNat_sub, BitVec.toNat_ofNat, BitVec.toNat_ofNat, BitVec.toNat_ofNat,
    show 63 % 2 ^ 10 = 63 from rfl, mask, kd, emod_eq]
  omega

/-- R100: the inverse schedule is the forward one reversed. -/
theorem kd_eq_kf {r : Nat} (h : r ≤ 527) : kd r = kf (527 - r) := by
  rw [kf_eq_mod, kd, emod_eq]
  omega

/-- R101, by the number of `r` below 528 in one class modulo 64. -/
theorem countP_kf {j : Nat} (hj : j < 64) :
    (List.range 528).countP (fun r => kf r = j) = if j ≤ 15 then 9 else 8 := by
  have class_of : ∀ r, kf r = j ↔ r ≡ j [MOD 64] := fun r => by rw [kf_eq_mod, Nat.ModEq, Nat.mod_eq_of_lt hj]
  simp only [class_of]
  refine (Nat.count_modEq_card 528 (by decide) j).trans ?_
  rw [Nat.mod_eq_of_lt hj]
  split <;> split <;> omega

/-- The rounds of one transform in reverse order consume the key bits of the other, each as often. -/
theorem countP_kd (j : Nat) :
    (List.range 528).countP (fun r => kd r = j) = (List.range 528).countP (fun r => kf r = j) := by
  have reversed : (List.range 528).reverse = (List.range 528).map (527 - ·) := by
    rw [List.range_eq_range', List.reverse_range', List.range_eq_range']
  rw [← List.countP_reverse (l := List.range 528), reversed, List.countP_map]
  refine List.countP_congr fun r hr => ?_
  have hr : r ≤ 527 := Nat.le_of_lt_succ (List.mem_range.mp hr)
  simp [kd_eq_kf (Nat.sub_le 527 r), Nat.sub_sub_self hr]

/-! ### the transforms undo each other -/

/-- The first `n` inverse rounds undo the last `n` of the 528 forward rounds. -/
theorem decRounds_encRounds (hi lo x : Word) {n : Nat} (h : n ≤ 528) :
    decRounds hi lo n (encRounds hi lo 528 x) = encRounds hi lo (528 - n) x := by
  induction n with
  | zero => rfl
  | succ n ih =>
    rw [decRounds_succ, ih (Nat.le_of_succ_le h), show 528 - n = 527 - n + 1 by omega, encRounds_succ,
      kd_eq_kf (Nat.le_of_succ_le_succ h), decRound_encRound, Nat.succ_sub_succ]

theorem decryptWord_encryptWord (hi lo x : Word) : decryptWord hi lo (encryptWord hi lo x) = x :=
  decRounds_encRounds hi lo x (Nat.le_refl 528)

/-- The decryptions of the two sides are the same, and no two words are decrypted alike. -/
theorem encryptWord_decryptWord (hi lo x : Word) : encryptWord hi lo (decryptWord hi lo x) = x :=
  decryptWord_injective hi lo (decryptWord_encryptWord hi lo (decryptWord hi lo x))

/-! ### words that every round leaves alone -/

section
variable {hi lo x : Word} {k : Bool} (hk : ∀ j < 64, keyBit hi lo j = k)
include hk

theorem encRounds_of_fixed (hx : encRound x k = x) (n : Nat) : encRounds hi lo n x = x := by
  induction n with
  | zero => rfl
  | succ n ih => rw [encRounds_succ, ih, hk _ (kf_lt n), hx]

theorem decRounds_of_fixed (hx : decRound x k = x) (n : Nat) : decRounds hi lo n x = x := by
  induction n with
  | zero => rfl
  | succ n ih => rw [decRounds_succ, ih, hk _ (kd_lt n), hx]

end

end Sys2Proof.Machine

namespace Sys2Proof
open Sys2Proof.Machine

/-- Settles O26: the laws of the two indices, and one more round of each transform. -/
theorem keyScheduleReversed : Obligations.KeyScheduleReversed :=
  ⟨kf_eq_mod, fun r => ⟨kd_lt r, _, emod_spec (15 - (r : Int)) (by decide)⟩, kd_eq_low_bits, fun _ hr => kd_eq_kf hr,
    fun hi lo x r => ⟨encRounds_succ hi lo r x, decRounds_succ hi lo r x⟩⟩

/-- Settles O28: the forward counts are those of the classes modulo 64, and the inverse counts are the same. -/
theorem keyBitUsageCounts : Obligations.KeyBitUsageCounts :=
  ⟨by decide, fun j hj => ⟨countP_kf hj, (countP_kd j).trans (countP_kf hj)⟩⟩

/-- Settles O29: the second command runs under the key of the first, and each transform undoes the other. -/
theorem cipherRoundTrip : Obligations.CipherRoundTrip := by
  intro s x
  constructor
  · obtain ⟨t, ht, hr, harch, -⟩ := exec_encrypt x s
    obtain ⟨hhi, hlo⟩ := Prod.mk.inj harch
    obtain ⟨u, hu, hq, -⟩ := exec_decrypt (encryptWord s.keyHi s.keyLo x) t
    rw [hhi, hlo, decryptWord_encryptWord] at hq
    exact ⟨_, t, u, ht, hr, hu, hq⟩
  · obtain ⟨t, ht, hr, harch, -⟩ := exec_decrypt x s
    obtain ⟨hhi, hlo⟩ := Prod.mk.inj harch
    obtain ⟨u, hu, hq, -⟩ := exec_encrypt (decryptWord s.keyHi s.keyLo x) t
    rw [hhi, hlo, encryptWord_decryptWord] at hq
    exact ⟨_, t, u, ht, hr, hu, hq⟩

/-- Settles O30: a map with a two-sided inverse is a bijection, and so is its inverse. -/
theorem transformsAreBijections : Obligations.TransformsAreBijections := by
  intro hi lo
  have left : Function.LeftInverse (decryptWord hi lo) (encryptWord hi lo) := decryptWord_encryptWord hi lo
  have right : Function.RightInverse (decryptWord hi lo) (encryptWord hi lo) := encryptWord_decryptWord hi lo
  exact ⟨⟨left.injective, right.surjective⟩, ⟨right.injective, left.surjective⟩, left, right⟩

/-- Settles O31: every key bit is 0 under the zero key and 1 under the all-ones key, and one round with that bit leaves the
word. -/
theorem fixedPointsOfRounds : Obligations.FixedPointsOfRounds := by
  have zeros : ∀ j < 64, keyBit 0#32 0#32 j = false := by decide
  have ones : ∀ j < 64, keyBit 0xFFFFFFFF#32 0xFFFFFFFF#32 j = true := by decide
  exact fun n => ⟨encRounds_of_fixed zeros (by decide) n, decRounds_of_fixed zeros (by decide) n,
    encRounds_of_fixed ones (by decide) n, decRounds_of_fixed ones (by decide) n⟩

end Sys2Proof

/-! PROOFS. The reference hardware from the accepting edge of a command to its completing edge (R106; 70_reset_and_hazards.md
R164). -/
namespace Sys2Proof.Machine

/-- Edges inside a command lead from stage to stage, whatever the command port shows at them. -/
theorem edges_stage (s : State) (i : Instr) {n : Nat} {ps : List Pins} (hp : ∀ p ∈ ps, p.rst = false)
    (hn : n + ps.length < Config.refLat (opcodeOf i)) : edges ps (s.stage i n) = .next (s.stage i (n + ps.length)) :=
  edges_walk (s.stage i) (Config.refLat (opcodeOf i) - 1) (fun m _ => stage_busy s i m)
    (fun m hm => work_stage s i (by omega)) ps n hp (by omega)

/-- The edges up to and including the completing one leave what the command's meaning gives. -/
theorem edges_stage_last (s : State) (i : Instr) {n : Nat} {ps : List Pins} (hp : ∀ p ∈ ps, p.rst = false)
    (hps : ps ≠ []) (hn : n + ps.length = Config.refLat (opcodeOf i)) : edges ps (s.stage i n) = exec i s := by
  obtain ⟨qs, p, rfl⟩ := (List.eq_nil_or_concat' ps).resolve_left hps
  obtain ⟨hqs, hlast⟩ := List.forall_mem_append.mp hp
  rw [List.length_append, List.length_singleton, ← Nat.add_assoc] at hn
  obtain ⟨t, -, ht, -⟩ := exec_next i s
  have complete : edge p (s.stage i (n + qs.length)) = .next t := by
    rw [edge_busy (hlast p (List.mem_singleton_self p)) (stage_busy ..), work_stage_last s i hn, ht]
  rw [edges_append [p] (edges_stage s i hqs (by omega)), edges_cons_of_next [] complete, edges_nil, ht]

end Sys2Proof.Machine

namespace Sys2Proof
open Sys2Proof.Machine

/-- Settles O51: the accepting edge leaves stage 0 of the command, and the edges of its latency lead from there to its
meaning. -/
theorem referenceRefinesCommand : Obligations.ReferenceRefinesCommand := by
  intro s w i ps hb hd hp hlen
  have hps : ps ≠ [] := List.ne_nil_of_length_pos (hlen ▸ refLat_pos (opcodeOf i))
  rw [edges_cons_of_next ps (edge_present hb hd), ← stage_zero]
  exact edges_stage_last s i hp hps (by omega)

end Sys2Proof

/-! PROOFS. The worked examples (R94, R98; 42_key_derivation.md R111, R113; 95_test_vectors.md section 2). -/
namespace Sys2Proof.Machine

theorem encryptWord_example : encryptWord 0x5CEC6701#32 0xB79FD949#32 0xF741E2DB#32 = 0xE44F4CDF#32 := by
  decide +kernel

theorem derived_example :
    derivedHi 0x5CEC6701#32 0xB79FD949#32 0x01234567#32 = 0xAFDBD92D#32 ∧
    derivedLo 0x5CEC6701#32 0xB79FD949#32 0x01234567#32 = 0x0AF0176C#32 := by decide +kernel

theorem derived_twice_example :
    derivedHi 0xAFDBD92D#32 0x0AF0176C#32 0x01234567#32 = 0x9558EADC#32 ∧
    derivedLo 0xAFDBD92D#32 0x0AF0176C#32 0x01234567#32 = 0xEB611242#32 := by decide +kernel

/-- NORMLEARN from a key whose derived halves are known. -/
theorem exec_normlearn_of_derived {s : State} {serial hi lo hi' lo' : Word} (hs : s.arch = (hi, lo))
    (h : derivedHi hi lo serial = hi' ∧ derivedLo hi lo serial = lo') :
    ∃ t, exec (.normlearn serial) s = .next t ∧ t.rsp = some .void ∧ t.arch = (hi', lo') := by
  obtain ⟨rfl, rfl⟩ := Prod.mk.inj hs
  obtain ⟨rfl, rfl⟩ := h
  exact exec_normlearn serial s

end Sys2Proof.Machine

namespace Sys2Proof
open Sys2Proof.Machine

/-- Settles O32: the encryption and the two derivations are computed; the decryption is that encryption undone. -/
theorem workedExamples : Obligations.WorkedExamples := by
  intro s hhi hlo
  have key : s.arch = (0x5CEC6701#32, 0xB79FD949#32) := Prod.ext hhi hlo
  obtain ⟨t, ht, htr, harch⟩ := exec_normlearn_of_derived key derived_example
  obtain ⟨u, hu, hur, harch'⟩ := exec_normlearn_of_derived harch derived_twice_example
  refine ⟨?encrypt, ?decrypt, ⟨t, ht, harch⟩, u, runCommands_cons ht htr (runCommands_cons hu hur rfl), harch'⟩
  case encrypt =>
    obtain ⟨v, hv, hr, -⟩ := exec_encrypt 0xF741E2DB#32 s
    rw [hhi, hlo, encryptWord_example] at hr
    exact ⟨v, hv, hr⟩
  case decrypt =>
    obtain ⟨v, hv, hr, -⟩ := exec_decrypt 0xE44F4CDF#32 s
    rw [hhi, hlo, ← encryptWord_example, decryptWord_encryptWord] at hr
    exact ⟨v, hv, hr⟩

end Sys2Proof

/-! PROOFS. The two seeds of a serial and NORMLEARN (42_key_derivation.md R110 to R114). Each seed is a top digit above the low
28 bits of the serial, so the laws of the seeds are laws of such a word. -/
namespace Sys2Proof.Machine

/-! ### a digit above 28 bits -/

theorem getLsbD_digit_append (d : BitVec 4) (f : BitVec 28) {i : Nat} (h : i < 28) :
    (d ++ f).getLsbD i = f.getLsbD i := by
  rw [BitVec.getLsbD_append, if_pos h]

theorem extractLsb'_digit_append (d : BitVec 4) (f : BitVec 28) : (d ++ f).extractLsb' 28 4 = d := by
  apply BitVec.eq_of_getLsbD_eq
  intro i hi
  rw [BitVec.getLsbD_extractLsb', BitVec.getLsbD_append]
  simp [hi]

/-! ### the seeds -/

theorem getLsbD_serialField (a : Word) {i : Nat} (h : i < 28) : (serialField a).getLsbD i = a.getLsbD i := by
  simp [serialField, h]

theorem getLsbD_seedLo (a : Word) {i : Nat} (h : i < 28) : (seedLo a).getLsbD i = a.getLsbD i := by
  rw [seedLo_eq_append, getLsbD_digit_append _ _ h, getLsbD_serialField a h]

theorem getLsbD_seedHi (a : Word) {i : Nat} (h : i < 28) : (seedHi a).getLsbD i = a.getLsbD i := by
  rw [seedHi_eq_append, getLsbD_digit_append _ _ h, getLsbD_serialField a h]

theorem topDigit_seedLo (a : Word) : (seedLo a).extractLsb' 28 4 = 0b0010#4 := by
  rw [seedLo_eq_append, extractLsb'_digit_append]

theorem topDigit_seedHi (a : Word) : (seedHi a).extractLsb' 28 4 = 0b0110#4 := by
  rw [seedHi_eq_append, extractLsb'_digit_append]

theorem seedHi_eq_seedLo_or (a : Word) : seedHi a = seedLo a ||| 0x40000000#32 := by
  have constants : seedLoConst ||| 0x40000000#32 = seedHiConst := by decide
  rw [seedHi, seedLo, BitVec.or_assoc, constants]

theorem seedHi_ne_seedLo (a : Word) : seedHi a ≠ seedLo a := by
  intro h
  have digits := congrArg (BitVec.extractLsb' 28 4) h
  rw [topDigit_seedHi, topDigit_seedLo] at digits
  exact absurd digits (by decide)

theorem seedLo_congr {a b : Word} (h : serialField a = serialField b) : seedLo a = seedLo b := by
  rw [seedLo_eq_append, seedLo_eq_append, h]

theorem seedHi_congr {a b : Word} (h : serialField a = serialField b) : seedHi a = seedHi b := by
  rw [seedHi_eq_append, seedHi_eq_append, h]

/-- The masked serial determines the field that the register `S` latches (R115). -/
theorem serialField_eq_of_serial28_eq {a b : Word} (h : serial28 a = serial28 b) : serialField a = serialField b := by
  refine serialField_congr fun i hi => ?_
  have bit : (serial28 a).getLsbD i = (serial28 b).getLsbD i := by rw [h]
  simpa [getLsbD_serial28, hi] using bit

/-- R113: no two words have the same decryption, so the halves differ as the seeds do. -/
theorem derivedHi_ne_derivedLo (hi lo serial : Word) : derivedHi hi lo serial ≠ derivedLo hi lo serial :=
  (decryptWord_injective hi lo).ne (seedHi_ne_seedLo serial)

end Sys2Proof.Machine

namespace Sys2Proof
open Sys2Proof.Machine

/-- Settles O33: the low bits, the top digits, the bit in which the seeds differ, and the serial bits they leave out. -/
theorem seedBits : Obligations.SeedBits :=
  ⟨fun a _ hi => ⟨getLsbD_seedLo a hi, getLsbD_seedHi a hi⟩, fun a => ⟨topDigit_seedLo a, topDigit_seedHi a⟩,
    fun a => ⟨seedHi_eq_seedLo_or a, seedHi_ne_seedLo a⟩,
    fun _ _ h => ⟨seedLo_congr (serialField_congr h), seedHi_congr (serialField_congr h)⟩⟩

/-- Settles O34, from the fields of the word and the meaning of NORMLEARN, its two seeds written out. -/
theorem normlearnDerivesFromOldKey : Obligations.NormlearnDerivesFromOldKey :=
  ⟨fun a b => ⟨decode_wordOf ⟨opNormlearn, a, b⟩, rfl⟩, fun _ _ => ⟨_, rfl, rfl, rfl, rfl, rfl, rfl, rfl⟩⟩

/-- Settles O35: either key left is the pair of halves derived from the one old key, and its halves differ. -/
theorem derivedHalvesDiffer : Obligations.DerivedHalvesDiffer := by
  intro a s s' hs
  obtain ⟨hhi, hlo⟩ := Prod.mk.inj hs
  obtain ⟨t, hx, -, harch⟩ := exec_normlearn a s
  obtain ⟨t', hx', -, harch'⟩ := exec_normlearn a s'
  rw [← hhi, ← hlo] at harch'
  obtain ⟨hthi, htlo⟩ := Prod.mk.inj harch
  refine ⟨t, t', hx, hx', harch.trans harch'.symm, ?_⟩
  rw [hthi, htlo]
  exact derivedHi_ne_derivedLo s.keyHi s.keyLo a

/-- Settles O36: the mask is that of the operand form, and NORMLEARN reads the masked serial alone. -/
theorem serialTopBitsIgnored : Obligations.SerialTopBitsIgnored := fun _ _ s h =>
  exec_normlearn_congr s (serialField_eq_of_serial28_eq h)

end Sys2Proof

/-! PROOFS. REFLECTPACK (43_bit_reversal.md R120), the bits of the loop (R121, R122), and the laws of the reversal,
each read off the bits of the reversed word (R123). -/
namespace Sys2Proof.Machine

theorem exec_reflectpack (a : Word) (s : State) :
    ∃ t, exec (.reflectpack a) s = .next t ∧ t.rsp = some (.data (reflectWord a)) ∧ t.arch = s.arch ∧
      t.busy = false ∧ t.host = s.host := ⟨_, rfl, rfl, rfl, rfl, rfl⟩

/-- R120: below bit 32 the reversed word is the mirrored operand. -/
theorem getLsbD_reflectWord_of_lt (a : Word) {i : Nat} (hi : i < 32) : (reflectWord a).getLsbD i = a.getLsbD (31 - i) := by
  rw [getLsbD_reflectWord, decide_eq_true hi, Bool.true_and]

/-! ### the loop -/

/-- R121: a zero accumulator of any width has zeros above the operand's bits. -/
theorem getLsbD_reflectIter_zero {w : Nat} (a : Word) (n j : Nat) :
    (reflectIter 0#w a n).1.getLsbD j = (decide (j < w ∧ j < n) && a.getLsbD (n - 1 - j)) := by
  by_cases hj : j < w
  · rw [getLsbD_reflectIter 0#w a n hj, BitVec.getLsbD_zero]
    simp [hj]
  · rw [BitVec.getLsbD_of_ge _ _ (Nat.le_of_not_lt hj)]
    simp [hj]

/-- R122: what the accumulator held at the start is shifted above its low 32 bits. -/
theorem trunc32_reflectIter {w : Nat} (hw : 32 ≤ w) (acc : BitVec w) (a : Word) :
    trunc32 (reflectIter acc a 32).1 = reflectWord a := by
  refine BitVec.eq_of_getLsbD_eq fun i hi => ?_
  rw [trunc32, BitVec.getLsbD_setWidth, decide_eq_true hi, Bool.true_and,
    getLsbD_reflectIter acc a 32 (hi.trans_le hw), if_pos hi, getLsbD_reflectWord_of_lt _ hi]

theorem reflectIter_lt {w : Nat} (a : Word) (n : Nat) : (reflectIter 0#w a n).1.toNat < 2 ^ n := by
  refine Nat.lt_pow_two_of_testBit _ fun i hi => ?_
  rw [BitVec.testBit_toNat, getLsbD_reflectIter_zero]
  simp [Nat.not_lt.mpr hi]

/-- The bit that an iteration injects meets a zero. -/
theorem shiftLeft_one_and_setWidth_ofBool {w : Nat} (acc : BitVec w) (b : Bool) :
    (acc <<< 1) &&& (BitVec.ofBool b).setWidth w = 0#w := by
  refine BitVec.eq_of_getLsbD_eq fun i _ => ?_
  cases i <;> simp [-BitVec.getLsbD_eq_getElem]

theorem or_eq_xor_of_and_eq_zero {w : Nat} {x y : BitVec w} (h : x &&& y = 0#w) : x ||| y = x ^^^ y := by
  have bits : ∀ a b : Bool, (a && b) = false → (a || b) = (a ^^ b) := by decide
  refine BitVec.eq_of_getLsbD_eq fun i _ => ?_
  rw [BitVec.getLsbD_or, BitVec.getLsbD_xor]
  exact bits _ _ (by rw [← BitVec.getLsbD_and, h, BitVec.getLsbD_zero])

/-! ### the laws -/

theorem reflectWord_reflectWord (a : Word) : reflectWord (reflectWord a) = a := by
  refine BitVec.eq_of_getLsbD_eq fun i hi => ?_
  have inside : 31 - i < 32 := by omega
  rw [getLsbD_reflectWord_of_lt _ hi, getLsbD_reflectWord_of_lt _ inside, Nat.sub_sub_self (Nat.le_of_lt_succ hi)]

theorem reflectWord_zero : reflectWord 0#32 = 0#32 := by
  refine BitVec.eq_of_getLsbD_eq fun i hi => ?_
  rw [getLsbD_reflectWord_of_lt _ hi, BitVec.getLsbD_zero, BitVec.getLsbD_zero]

theorem reflectWord_allOnes : reflectWord (BitVec.allOnes 32) = BitVec.allOnes 32 := by
  refine BitVec.eq_of_getLsbD_eq fun i hi => ?_
  have inside : 31 - i < 32 := by omega
  rw [getLsbD_reflectWord_of_lt _ hi, BitVec.getLsbD_allOnes, BitVec.getLsbD_allOnes, decide_eq_true inside,
    decide_eq_true hi]

theorem reflectWord_one_shiftLeft {i : Nat} (hi : i ≤ 31) : reflectWord (1#32 <<< i) = 1#32 <<< (31 - i) := by
  rw [← BitVec.twoPow_eq, ← BitVec.twoPow_eq]
  refine BitVec.eq_of_getLsbD_eq fun j hj => ?_
  rw [getLsbD_reflectWord_of_lt _ hj, BitVec.getLsbD_twoPow, BitVec.getLsbD_twoPow, ← Bool.decide_and, ← Bool.decide_and]
  exact decide_eq_decide.mpr (by omega)

theorem reflectWord_one : reflectWord 1#32 = 0x80000000#32 := by
  have power := reflectWord_one_shiftLeft (Nat.zero_le 31)
  rwa [BitVec.shiftLeft_zero] at power

theorem reflectWord_xor (u v : Word) : reflectWord (u ^^^ v) = reflectWord u ^^^ reflectWord v := by
  refine BitVec.eq_of_getLsbD_eq fun i hi => ?_
  rw [BitVec.getLsbD_xor, getLsbD_reflectWord_of_lt _ hi, getLsbD_reflectWord_of_lt _ hi, getLsbD_reflectWord_of_lt _ hi,
    BitVec.getLsbD_xor]

theorem reflectWord_or (u v : Word) : reflectWord (u ||| v) = reflectWord u ||| reflectWord v := by
  refine BitVec.eq_of_getLsbD_eq fun i hi => ?_
  rw [BitVec.getLsbD_or, getLsbD_reflectWord_of_lt _ hi, getLsbD_reflectWord_of_lt _ hi, getLsbD_reflectWord_of_lt _ hi,
    BitVec.getLsbD_or]

theorem reflectWord_and (u v : Word) : reflectWord (u &&& v) = reflectWord u &&& reflectWord v := by
  refine BitVec.eq_of_getLsbD_eq fun i hi => ?_
  rw [BitVec.getLsbD_and, getLsbD_reflectWord_of_lt _ hi, getLsbD_reflectWord_of_lt _ hi, getLsbD_reflectWord_of_lt _ hi,
    BitVec.getLsbD_and]

theorem reflectWord_ushiftRight_one (a : Word) : reflectWord (a >>> 1) = reflectWord a <<< 1 := by
  refine BitVec.eq_of_getLsbD_eq fun i hi => ?_
  rw [getLsbD_reflectWord_of_lt _ hi, BitVec.getLsbD_ushiftRight, BitVec.getLsbD_shiftLeft]
  cases i with
  | zero => simp
  | succ i =>
    have shifted : 1 + (31 - (i + 1)) = 31 - i := by omega
    rw [shifted, Nat.add_sub_cancel, getLsbD_reflectWord_of_lt _ (Nat.lt_of_succ_lt hi)]
    simp [hi]

theorem countP_range_reflect (p : Nat → Bool) (n : Nat) :
    (List.range n).countP (fun i => p (n - 1 - i)) = (List.range n).countP p := by
  have reversed : (List.range n).reverse = (List.range n).map (n - 1 - ·) := by
    simp [List.range_eq_range', List.reverse_range']
  rw [← List.countP_reverse (l := List.range n) (p := p), reversed, List.countP_map]
  rfl

theorem countP_reflectWord (a : Word) :
    (List.range 32).countP (reflectWord a).getLsbD = (List.range 32).countP a.getLsbD := by
  rw [← countP_range_reflect a.getLsbD]
  refine List.countP_congr fun i hi => ?_
  rw [getLsbD_reflectWord_of_lt _ (List.mem_range.mp hi)]

end Sys2Proof.Machine

namespace Sys2Proof
open Sys2Proof.Machine

/-- Settles O38: the bits of the loop's accumulator, in 32 bits, and its end value. -/
theorem reflectIterationComputesReversal : Obligations.ReflectIterationComputesReversal := by
  refine ⟨fun a n hn => ⟨fun j => ?_, reflectIter_source _ a n⟩, reflectIter_reverses⟩
  have inside : (j < 32 ∧ j < n) ↔ j < n := and_iff_right_of_imp fun h => h.trans_le hn
  simp only [getLsbD_reflectIter_zero, inside]

/-- Settles O39: the start is shifted out of the low bits, and the injected bit meets a zero. -/
theorem reflectAccumulatorIsFree : Obligations.ReflectAccumulatorIsFree := by
  refine ⟨fun _ acc a hw => trunc32_reflectIter hw acc a, fun _ => reflectIter_lt, fun _ acc b => ?_⟩
  have apart := shiftLeft_one_and_setWidth_ofBool acc b
  exact ⟨or_eq_xor_of_and_eq_zero apart, (BitVec.add_eq_or_of_and_eq_zero _ _ apart).symm⟩

/-- Settles O40, law by law. -/
theorem reflectLaws : Obligations.ReflectLaws :=
  ⟨reflectWord_reflectWord, reflectWord_zero, reflectWord_allOnes, reflectWord_one, fun _ => reflectWord_one_shiftLeft,
    fun u v => ⟨reflectWord_xor u v, reflectWord_or u v, reflectWord_and u v⟩,
    reflectWord_ushiftRight_one, countP_reflectWord⟩

/-- Settles O37, from the fields of the word and the bits of the result. -/
theorem reflectpackReversesBits : Obligations.ReflectpackReversesBits := by
  refine ⟨fun a b => ⟨decode_wordOf ⟨opReflectpack, a, b⟩, rfl⟩, fun a s => ?_⟩
  obtain ⟨t, ht, hr, hframe⟩ := exec_reflectpack a s
  exact ⟨t, _, ht, hr, fun _ => getLsbD_reflectWord_of_lt a, hframe⟩

end Sys2Proof

/-! PROOFS. A command in progress run to its completion (70_reset_and_hazards.md R166): from any stage of the reference
sequencing, enough working edges end in what the command's meaning gives. -/
namespace Sys2Proof.Machine

theorem stage_host (s : State) (i : Instr) (n : Nat) : (s.stage i n).host = s.host := by
  cases i with
  | normlearn serial =>
    rcases Nat.lt_or_ge n 528 with h | h
    · rw [stage_normlearn_low s serial h]; rfl
    · obtain ⟨m, rfl⟩ := Nat.exists_eq_add_of_le h
      rw [stage_normlearn_high]; rfl
  | _ => rfl

/-- No command takes longer than NORMLEARN's 1056 edges (R164), so the step's fuel lasts. -/
theorem refLat_le_finishFuel (op : Opcode) : Config.refLat op ≤ finishFuel := by
  unfold Config.refLat finishFuel
  split <;> decide

/-- The edges still to come of a command at its `n`th stage complete it, and further fuel changes nothing. -/
theorem finish_stage (s : State) (i : Instr) {n fuel : Nat} (hn : n < Config.refLat (opcodeOf i))
    (hfuel : Config.refLat (opcodeOf i) ≤ n + fuel) : (s.stage i n).finish fuel = exec i s := by
  induction fuel generalizing n with
  | zero => omega
  | succ fuel ih =>
    rcases Nat.lt_or_eq_of_le (Nat.succ_le_of_lt hn) with hmid | hlast
    · rw [finish_busy fuel (stage_busy s i n) (work_stage s i hmid), ih hmid (by omega)]
    · obtain ⟨t, -, ht, -, hidle, -⟩ := exec_next i s
      rw [finish_busy fuel (stage_busy s i n) ((work_stage_last s i hlast).trans ht), finish_idle fuel hidle, ht]

/-- The step of a host that does not reset serves a command in progress by completing it. -/
theorem step_stage {s : State} (i : Instr) {n : Nat} (hn : n < Config.refLat (opcodeOf i))
    (hh : ∀ ms, s.host ≠ .reset :: ms) : step (s.stage i n) = exec i s := by
  rw [step_busy (stage_busy s i n) (by rwa [stage_host])]
  exact finish_stage s i hn (Nat.le_add_left_of_le (refLat_le_finishFuel _))

end Sys2Proof.Machine

namespace Sys2Proof
open Sys2Proof.Machine

/-- Settles O56: fewer edges than the latency after acceptance leave a stage of the command, whose step completes it. -/
theorem commandInProgressCompletes : Obligations.CommandInProgressCompletes := by
  intro s u w i ps hb hd hp hlen hu hh
  rw [edges_cons_of_next ps (edge_present hb hd), ← stage_zero, edges_stage s i hp (by omega)] at hu
  cases hu
  exact step_stage i (by omega) hh

end Sys2Proof

/-! PROOFS. The step of the host's moves other than a command (60_exceptions.md R143, 70_reset_and_hazards.md R151, R152), and
the answer of every command (R130). -/
namespace Sys2Proof.Machine

/-- The one step of an accepted command that the host abandons is the reset edge (R152). -/
theorem step_abandoned {s : State} {w : CommandWord} {ms : List HostMove} {i : Instr} (hb : s.busy = false)
    (hh : s.host = .abandoned w :: ms) (hd : decode w = .ok i) :
    step s = .next (State.resetEdge { s with host := ms }) :=
  (step_idle_cons hb hh).trans (abandon_ok _ hd)

/-- A command gives no word exactly when it writes the key (30_encoding.md R72). -/
theorem exec_rspQ_eq_none_iff {i : Instr} {s t : State} (h : exec i s = .next t) :
    t.rspQ = none ↔ commandWritesKey i = true := by
  cases i with
  | setkey hi lo => cases h; exact iff_of_true rfl rfl
  | normlearn serial => cases h; exact iff_of_true rfl rfl
  | _ => cases h; exact iff_of_false (Option.some_ne_none _) Bool.false_ne_true

end Sys2Proof.Machine

namespace Sys2Proof
open Sys2Proof.Machine

/-- Settles O11: the first two moves step to the reset state, the last two to the quiet one, each with the rest of the
moves. -/
theorem stepOfOtherMoves : Obligations.StepOfOtherMoves := by
  refine ⟨fun s ms hh => ?reset, fun s w ms i hb hh hd => ?abandoned, fun s ms hb hh => ?idle, fun s hb hh => ?noMove⟩
  case reset => exact ⟨_, step_reset hh, rfl, rfl, rfl, rfl⟩
  case abandoned => exact ⟨_, step_abandoned hb hh hd, rfl, rfl, rfl, rfl⟩
  case idle => exact ⟨_, step_idle_cons hb hh, rfl, hb, rfl, rfl⟩
  case noMove => exact ⟨_, step_idle_nil hb hh, rfl, hb, rfl, hh⟩

/-- Settles O12: a command completes with one response, which carries a word unless the command writes the key. -/
theorem everyCommandAnswers : Obligations.EveryCommandAnswers := by
  intro i s
  obtain ⟨t, r, ht, hr, hidle, hhost, -⟩ := exec_next i s
  exact ⟨t, ht, congrArg Option.isSome hr, hidle, hhost, exec_rspQ_eq_none_iff ht⟩

end Sys2Proof

/-! PROOFS. Reset (70_reset_and_hazards.md R151, R152, R156): what a reset edge leaves from any state, the stage of a command
at which it strikes, and the commands that run on the key it leaves. -/
namespace Sys2Proof.Machine

/-! ### reset edges -/

theorem cmdReady_rst (s : State) : s.cmdReady true = false := Bool.and_false _

/-- A reset edge leaves the zero key, an idle engine and no response, and only the host's coming moves as they were. -/
theorem edge_reset_next {p : Pins} (s : State) (hp : p.rst = true) : ∃ v, edge p s = .next v ∧
    v.arch = (0#32, 0#32) ∧ v.busy = false ∧ v.rsp = none ∧ v.host = s.host :=
  ⟨_, edge_reset s hp, rfl, rfl, rfl, rfl⟩

/-! ### edges inside a command -/

theorem stage_rsp (s : State) (i : Instr) (n : Nat) : (s.stage i n).rsp = none :=
  congrArg View.rsp (stage_view s i n)

theorem stage_arch (s : State) (i : Instr) (n : Nat) : (s.stage i n).arch = s.arch :=
  congrArg (fun v => (v.keyHi, v.keyLo)) (stage_view s i n)

/-- The accepting edge and fewer further edges than the latency leave the command at the stage they count. -/
theorem edges_present_stage {s : State} {w : CommandWord} {i : Instr} {ps : List Pins} (hb : s.busy = false)
    (hd : decode w = .ok i) (hp : ∀ p ∈ ps, p.rst = false) (hlen : ps.length < Config.refLat (opcodeOf i)) :
    edges (Pins.present w :: ps) s = .next (s.stage i ps.length) := by
  rw [edges_cons_of_next ps (edge_present hb hd), ← stage_zero, edges_stage s i hp (by omega), Nat.zero_add]

/-! ### the zero key -/

theorem encryptWord_zero_key_example : encryptWord 0#32 0#32 0x00000001#32 = 0x2F197B2E#32 := by
  decide +kernel

theorem derived_zero_key_example :
    derivedHi 0#32 0#32 0x00000000#32 = 0x183DBA7E#32 ∧ derivedLo 0#32 0#32 0x00000000#32 = 0xBC54A53A#32 := by
  decide +kernel

end Sys2Proof.Machine

namespace Sys2Proof
open Sys2Proof.Machine

/-- Settles O49: before its completing edge an accepted command is at a stage, which shows no response and the old key; a
reset edge leaves its own state from there as from anywhere. -/
theorem resetAbandonsCommand : Obligations.ResetAbandonsCommand := by
  intro s w i ps r hb hd hp hlen hr
  have stage := edges_present_stage hb hd hp hlen
  refine ⟨?running, ?reset, edge_reset_next s rfl⟩
  case running => exact ⟨_, stage, stage_busy .., stage_rsp .., stage_arch ..⟩
  case reset =>
    obtain ⟨v, he, harch, hidle, hrsp, hhost⟩ := edge_reset_next (s.stage i ps.length) hr
    refine ⟨v, ?_, harch, hidle, hrsp, hhost.trans (stage_host ..)⟩
    rw [edges_append [r] stage, edges_cons_of_next [] he, edges_nil]

/-- Settles O48: what the edge leaves is the reset state with the host's moves, of which the second clause compares two. -/
theorem resetEdgeEffect : Obligations.ResetEdgeEffect := by
  constructor
  · intro p s hp
    exact ⟨s.resetEdge, edge_reset s hp, rfl, rfl, rfl, rfl, hp ▸ cmdReady_rst s, rfl, rfl⟩
  · intro p q s t hp hq hhost
    exact ⟨s.resetEdge, t.resetEdge, edge_reset s hp, edge_reset t hq, rfl, rfl, rfl, rfl, hhost⟩

/-- Settles O50: the three commands compute under the stored key, which reset made zero; the two examples are computed. -/
theorem commandsOnResetKey : Obligations.CommandsOnResetKey := by
  refine ⟨fun x => ⟨?encrypt, ?decrypt, ?normlearn⟩, ?encryptExample, ?normlearnExample⟩
  case encrypt =>
    obtain ⟨t, hx, hr, -⟩ := exec_encrypt x State.reset
    exact ⟨t, hx, hr⟩
  case decrypt =>
    obtain ⟨t, hx, hr, -⟩ := exec_decrypt x State.reset
    exact ⟨t, hx, hr⟩
  case normlearn =>
    obtain ⟨t, hx, -, harch⟩ := exec_normlearn x State.reset
    exact ⟨t, hx, Prod.mk.inj harch⟩
  case encryptExample =>
    obtain ⟨t, hx, hr, -⟩ := exec_encrypt 0x00000001#32 State.reset
    exact ⟨t, hx, hr.trans (congrArg (fun q => some (Response.data q)) encryptWord_zero_key_example)⟩
  case normlearnExample =>
    obtain ⟨t, hx, -, harch⟩ := exec_normlearn_of_derived (s := State.reset) rfl derived_zero_key_example
    exact ⟨t, hx, Prod.mk.inj harch⟩

end Sys2Proof

/-! PROOFS. An engine shared by two callers (70_reset_and_hazards.md R158): what runs after the other caller's SETKEY runs under
that caller's key. -/
namespace Sys2Proof.Machine

/-- Whatever command comes before the other caller's SETKEY, the command after it finds that caller's key. -/
theorem runCommands_setkey_between {i : Instr} {s t : State} {q : Response} (hx : exec i s = .next t)
    (hq : t.rsp = some q) (hi lo : Word) :
    ∃ u, (u.keyHi = hi ∧ u.keyLo = lo) ∧ ∀ {j : Instr} {v : State} {r : Response}, exec j u = .next v → v.rsp = some r →
      runCommands [i, .setkey hi lo, j] s = .next (v, [q, .void, r]) := by
  obtain ⟨u, hu, hur, key⟩ := exec_setkey hi lo t
  exact ⟨u, Prod.mk.inj key, fun hv hr => runCommands_cons hx hq (runCommands_cons hu hur (runCommands_cons hv hr rfl))⟩

end Sys2Proof.Machine

namespace Sys2Proof
open Sys2Proof.Machine

/-- Settles O19: in each sequence A's last command reads the key that B's SETKEY left. -/
theorem sharedEngineUsesLastKey : Obligations.SharedEngineUsesLastKey := by
  intro s aHi aLo bHi bLo x
  obtain ⟨a, hset, hsetr, -⟩ := exec_setkey aHi aLo s
  obtain ⟨u, key, run⟩ := runCommands_setkey_between hset hsetr bHi bLo
  refine ⟨?setkeyEncrypt, ?normlearnGetkey, ?getkeys, ?setkeyNormlearn⟩
  case setkeyEncrypt =>
    obtain ⟨rfl, rfl⟩ := key
    obtain ⟨v, hv, hr, -⟩ := exec_encrypt x u
    exact ⟨v, run hv hr⟩
  case normlearnGetkey =>
    obtain ⟨t, hx, hq, -⟩ := exec_normlearn x s
    obtain ⟨u, ⟨rfl, rfl⟩, run⟩ := runCommands_setkey_between hx hq bHi bLo
    obtain ⟨v, hv, hr, -⟩ := exec_getkey true u
    exact ⟨v, run hv hr⟩
  case getkeys =>
    obtain ⟨t, hx, hq, -⟩ := exec_getkey true s
    obtain ⟨u, ⟨rfl, rfl⟩, run⟩ := runCommands_setkey_between hx hq bHi bLo
    obtain ⟨v, hv, hr, -⟩ := exec_getkey false u
    exact ⟨v, run hv hr⟩
  case setkeyNormlearn =>
    obtain ⟨rfl, rfl⟩ := key
    obtain ⟨v, hv, hr, harch⟩ := exec_normlearn x u
    exact ⟨v, run hv hr, Prod.mk.inj harch⟩

end Sys2Proof

/-! PROOFS. Words of the encoding vectors (95_test_vectors.md 8.1 and 8.2), some with bits set that their command ignores. -/
namespace Sys2Proof

/-- Settles O2: each word's opcode says which equation of the decoder applies; the operands are the word's own fields. -/
theorem listedWordsDecode : Obligations.ListedWordsDecode :=
  ⟨decode_setkey rfl, decode_getkey rfl, decode_getkey rfl, decode_encrypt rfl, decode_decrypt rfl,
    decode_normlearn rfl, decode_reflectpack rfl, decode_reserved (not_assigned_of_six_or_seven (.inl rfl)),
    decode_reserved (not_assigned_of_six_or_seven (.inr rfl))⟩

end Sys2Proof
